-- ==== Sys2Proof/Word.lean ====
section
/-! DEFINITION. The kinds of values of 00_scope.md R9 that need no machine: addressing modes and
opcodes. A cell value, operand, parameter, instruction word or address is a mathematical
integer with no width, so its type is `Int` itself (00_scope.md R5, R6; 41_arithmetic.md R60). -/

namespace Sys2Proof

/-- The two addressing modes of a read parameter (30_encoding.md R34). -/
inductive Mode where
  /-- mode digit 0: the parameter value is the address of the operand -/
  | position
  /-- mode digit 1: the parameter value is the operand -/
  | immediate
  deriving DecidableEq, Repr

/-- The nine opcodes (30_encoding.md R32). -/
inductive Opcode where
  | add
  | mult
  | input
  | output
  | jumpIfTrue
  | jumpIfFalse
  | lessThan
  | equals
  | halt
  deriving DecidableEq, Repr

/-- Which digit an InvalidAddressingMode is about (30_encoding.md R36, R39, R41). -/
inductive BadDigit where
  /-- the mode digit of read parameter `k`, counted from 1 -/
  | parameter (k : Nat)
  /-- a digit above the last parameter's digit -/
  | excess
  deriving DecidableEq, Repr

/-- All nine opcodes, in the order of the table of 30_encoding.md R32. -/
def Opcode.all : List Opcode :=
  [.add, .mult, .input, .output, .jumpIfTrue, .jumpIfFalse, .lessThan, .equals, .halt]

end Sys2Proof
end

