-- ==== Sys2Proof/Machine/State.lean ====
section
/-! DEFINITION. The state of one engine instance (10_state.md R10), the reasons a step can stop, and the state at reset. -/

namespace Sys2Proof.Machine

/-- One listed cell: its address and the integer it holds. A byte cannot hold an unbounded integer (10_state.md R13), so the
pair is not a Host.Cell (log 4). -/
abbrev Cell := Nat × Int

/-- The memory array `M` (10_state.md R13): `size` is its length `N`; `cells` lists the cells that do not hold
`Memory.unlisted`, addresses strictly rising. `Memory.wf` in Ops.lean states the canonical form. -/
structure Memory where
  size : Nat
  cells : List Cell
  deriving DecidableEq, Repr

/-- The run-state (10_state.md R15). -/
inductive RunState where
  | running
  | awaitingInput
  | halted
  deriving DecidableEq, Repr

/-- Which access a MemoryAccessFault is about (60_exceptions.md R86). -/
inductive Access where
  /-- the instruction word's fetch -/
  | fetch
  /-- the cell of parameter `k`, counted from 1 -/
  | parameter (k : Nat)
  /-- the POSITION operand of parameter `k` -/
  | operand (k : Nat)
  /-- the write target's address -/
  | target
  /-- a taken jump's target -/
  | jump
  deriving DecidableEq, Repr

/-- The fault kinds (60_exceptions.md R85). -/
inductive FaultKind where
  | invalidOpcode
  | invalidAddressingMode
  | memoryAccessFault
  | widthExceeded
  deriving DecidableEq, Repr

/-- A fault report: kind, the `ip` of the executing instruction, and information (60_exceptions.md R85, R86). The outcome
carries no State, so nothing can be read of memory, queue or output after a fault (R88). -/
inductive Fault where
  /-- Raised by the decode of a fetched word that is negative or has no opcode (R85, code 1). It follows the spec; that a
  negative word faults is the spec's own choice, and safe (log 7). -/
  | invalidOpcode (ip : Int) (word : Int)
  /-- Raised by the decode of a fetched word with a bad mode digit or an excess digit (R85, code 2). It follows the spec; that
  excess digits fault is the spec's own choice, and safe (log 9). -/
  | invalidAddressingMode (ip : Int) (word : Int) (bad : BadDigit)
  /-- Raised by every instruction whose fetch, parameter, operand, write target or taken jump target lies outside `[0, N)`
  (R85, code 3). It follows the spec and is safe. -/
  | memoryAccessFault (ip : Int) (address : Int) (access : Access)
  /-- Raised only by a realisation of finite `WORD_BITS`, never by the reference step (R85, code 4; 41_arithmetic.md R60).
  Safe: it stops where the reference goes on (log 6). -/
  | widthExceeded (ip : Int)
  deriving DecidableEq, Repr

/-- Why a step gives no meaning. The reference step never refuses. -/
inductive Refusal where
  /-- Raised by an arm of `exec` that has no meaning yet; no arm of this model is one. Safe. -/
  | notModelled (mnemonic : String)
  /-- Raised only by a realisation whose output buffer or input queue is bounded and full: it refuses, never drops a value
  (93_implementation_defined.md U4; log 6). Never raised by the reference step. Safe. -/
  | capacityExceeded
  /-- Raised only by a realisation of finite `ADDR_BITS` over a memory with more cells than addresses (00_scope.md R5; the model's
  choice, log 6). Never raised by the reference step. Safe. -/
  | addressesExceeded
  deriving DecidableEq, Repr

/-- The five pieces of state of one engine instance (10_state.md R10). -/
structure State where
  /-- `M`, the memory (10_state.md R13) -/
  mem : Memory
  /-- `Q`, the input queue, front first (10_state.md R16) -/
  queue : List Int
  /-- `ip`, the instruction pointer (10_state.md R14) -/
  ip : Int
  /-- `rs`, the run-state (10_state.md R15) -/
  rs : RunState
  /-- `O`, the output buffer, oldest first (10_state.md R17) -/
  out : List Int
  deriving DecidableEq, Repr

/-- The state at a fresh launch (10_state.md R19) with no program loaded and no input supplied: `N = 0`, nothing listed,
`Q = []`, `ip = 0`, RUNNING, `O = []`. A program comes in from outside (`launch`); log 1. -/
def State.reset : State :=
  { mem := ⟨0, []⟩, queue := [], ip := 0, rs := .running, out := [] }

end Sys2Proof.Machine
end

