-- ==== Sys2Proof/Machine/Flags.lean ====
section
/-! DEFINITION. The CORE has no flags and no condition codes (10_state.md R12): a comparison leaves 1 or 0 in a cell, a jump
tests an operand. Here are those truth values, and the four functions of the ALU (00_scope.md R2, R59 of 40_execution_cycle.md). -/

namespace Sys2Proof.Machine

/-- The truth value a comparison writes: 1 or 0 (44_compare.md R77). -/
def truthValue (b : Bool) : Int :=
  if b then 1 else 0

/-- What a jump reads as true: any nonzero operand (43_jumps.md R70, 44_compare.md R77). -/
def operandIsTrue (a : Int) : Bool :=
  decide (a ≠ 0)

/-- ALU `add`: the exact sum (41_arithmetic.md R60, R61). -/
def aluAdd (a b : Int) : Int := a + b

/-- ALU `mul`: the exact product (41_arithmetic.md R60, R62). -/
def aluMul (a b : Int) : Int := a * b

/-- ALU `lt`: signed and exact (44_compare.md R75). -/
def aluLt (a b : Int) : Int := truthValue (decide (a < b))

/-- ALU `eq`: exact equality (44_compare.md R76). -/
def aluEq (a b : Int) : Int := truthValue (decide (a = b))

end Sys2Proof.Machine
end

