-- ==== Sys2Proof/Syntax.lean ====
section
/-! DEFINITION. The instructions, one constructor per row of spec/opcode_table.json. -/

namespace Sys2Proof

/-- An instruction as the decoder gives it: the opcode with exactly one addressing mode per read parameter
(30_encoding.md R35). The parameter cells are not part of it: the decoder reads no memory, and the engine reads
them one by one after decoding (40_execution_cycle.md R47, R49). The write target's digit is not part of it either:
words that differ only there decode alike (30_encoding.md R40, R42). -/
inductive Instr where
  /-- ADD, word `XBA01` (41_arithmetic.md R61) -/
  | add (m1 m2 : Mode)
  /-- MULT, word `XBA02` (41_arithmetic.md R62) -/
  | mult (m1 m2 : Mode)
  /-- INPUT, word `00X03` (42_io.md R65) -/
  | input
  /-- OUTPUT, word `00A04` (42_io.md R66) -/
  | output (m1 : Mode)
  /-- JUMP_IF_TRUE, word `0BA05` (43_jumps.md R70) -/
  | jumpIfTrue (m1 m2 : Mode)
  /-- JUMP_IF_FALSE, word `0BA06` (43_jumps.md R71) -/
  | jumpIfFalse (m1 m2 : Mode)
  /-- LESS_THAN, word `XBA07` (44_compare.md R75) -/
  | lessThan (m1 m2 : Mode)
  /-- EQUALS, word `XBA08` (44_compare.md R76) -/
  | equals (m1 m2 : Mode)
  /-- HALT, word `00099` (45_halt.md R80) -/
  | halt
  deriving DecidableEq, Repr

/-- The opcode part of the decoder's answer (30_encoding.md R35). -/
def Instr.opcode : Instr → Opcode
  | .add _ _ => .add
  | .mult _ _ => .mult
  | .input => .input
  | .output _ => .output
  | .jumpIfTrue _ _ => .jumpIfTrue
  | .jumpIfFalse _ _ => .jumpIfFalse
  | .lessThan _ _ => .lessThan
  | .equals _ _ => .equals
  | .halt => .halt

/-- The mode list of the decoder's answer, in parameter order (30_encoding.md R35). -/
def Instr.modes : Instr → List Mode
  | .add m1 m2 | .mult m1 m2 | .jumpIfTrue m1 m2 | .jumpIfFalse m1 m2 | .lessThan m1 m2 | .equals m1 m2 => [m1, m2]
  | .output m1 => [m1]
  | .input | .halt => []

end Sys2Proof
end

