-- ==== Sys2Proof/Decode.lean ====
section
/-! DEFINITION. The columns of the opcode table, the instruction decoder (30_encoding.md R35 to R41) and the encoder (30_encoding.md R42, R44). -/

namespace Sys2Proof

/-- The value of the opcode field (30_encoding.md R32). -/
def Opcode.value : Opcode → Int
  | .add => 1
  | .mult => 2
  | .input => 3
  | .output => 4
  | .jumpIfTrue => 5
  | .jumpIfFalse => 6
  | .lessThan => 7
  | .equals => 8
  | .halt => 99

/-- `R`, the number of read parameters (30_encoding.md R30). -/
def Opcode.reads : Opcode → Nat
  | .add | .mult | .jumpIfTrue | .jumpIfFalse | .lessThan | .equals => 2
  | .output => 1
  | .input | .halt => 0

/-- Whether the opcode has a write target, `W = 1` (30_encoding.md R30). -/
def Opcode.hasTarget : Opcode → Bool
  | .add | .mult | .input | .lessThan | .equals => true
  | .output | .jumpIfTrue | .jumpIfFalse | .halt => false

/-- `P = R + W`, the number of parameters (30_encoding.md R30). -/
def Opcode.params (op : Opcode) : Nat :=
  op.reads + if op.hasTarget then 1 else 0

/-- The length in cells, `1 + P` (30_encoding.md R30). -/
def Opcode.length (op : Opcode) : Nat :=
  1 + op.params

/-- `digit(w, k)`, the decimal digit of `w` at position `k` (00_scope.md R7). Used on non-negative words only. -/
def digit (w : Int) (k : Nat) : Int :=
  w / 10 ^ k % 10

/-- The two decode faults, with their information (30_encoding.md R35, R36). -/
inductive DecodeFault where
  | invalidOpcode (word : Int)
  | invalidAddressingMode (word : Int) (bad : BadDigit)
  deriving DecidableEq, Repr

/-- The opcode an opcode field selects; every other value is illegal (30_encoding.md R32, R38). -/
def opcodeOfField (field : Int) : Option Opcode :=
  Opcode.all.find? fun op => op.value == field

/-- The mode of read parameter `k`, from the digit at position `k + 1` (30_encoding.md R31, R34, R39). -/
def decodeMode (w : Int) (k : Nat) : Except DecodeFault Mode :=
  if digit w (k + 1) = 0 then .ok .position
  else if digit w (k + 1) = 1 then .ok .immediate
  else .error (.invalidAddressingMode w (.parameter k))

/-- The last check: no nonzero digit above the last parameter's (30_encoding.md R36, R41). -/
def checkExcess (w : Int) (i : Instr) : Except DecodeFault Instr :=
  if w / 10 ^ (i.opcode.params + 2) ≠ 0 then .error (.invalidAddressingMode w .excess) else .ok i

/-- The decoding of a word with two read parameters. -/
def decodeTwo (w : Int) (mk : Mode → Mode → Instr) : Except DecodeFault Instr := do
  let m1 ← decodeMode w 1
  let m2 ← decodeMode w 2
  checkExcess w (mk m1 m2)

/-- The decoding of a word with one read parameter. -/
def decodeOne (w : Int) (mk : Mode → Instr) : Except DecodeFault Instr := do
  let m1 ← decodeMode w 1
  checkExcess w (mk m1)

/-- The mode digits and the excess digits of a word whose opcode is known (30_encoding.md R36). -/
def decodeAs (w : Int) : Opcode → Except DecodeFault Instr
  | .add => decodeTwo w .add
  | .mult => decodeTwo w .mult
  | .input => checkExcess w .input
  | .output => decodeOne w .output
  | .jumpIfTrue => decodeTwo w .jumpIfTrue
  | .jumpIfFalse => decodeTwo w .jumpIfFalse
  | .lessThan => decodeTwo w .lessThan
  | .equals => decodeTwo w .equals
  | .halt => checkExcess w .halt

/-- The instruction decoder: total on all integers (30_encoding.md R35, R36, R37, R38, R42). -/
def decode (w : Int) : Except DecodeFault Instr :=
  if w < 0 then .error (.invalidOpcode w)
  else match opcodeOfField (w % 100) with
    | none => .error (.invalidOpcode w)
    | some op => decodeAs w op

/-- The mode digit of a mode (30_encoding.md R34). -/
def Mode.digit : Mode → Int
  | .position => 0
  | .immediate => 1

/-- The mode digits of a mode list, the first at digit position `k` (30_encoding.md R31). -/
def encodeModes : List Mode → Nat → Int
  | [], _ => 0
  | m :: ms, k => m.digit * 10 ^ k + encodeModes ms (k + 1)

/-- The canonical word of an instruction: opcode field and mode digits, write-target digit 0 (30_encoding.md R42, R44). -/
def encode (i : Instr) : Int :=
  i.opcode.value + encodeModes i.modes 2

/-- The word of an instruction with `x` as its write target's digit, which the decoder ignores (30_encoding.md R40, R42). -/
def encodeWithTargetDigit (i : Instr) (x : Int) : Int :=
  encode i + x * 10 ^ (i.opcode.reads + 2)

/-- An instruction written out in cells: its word and its parameters (30_encoding.md R30). -/
structure Code where
  word : Int
  params : List Int
  deriving DecidableEq, Repr

/-- The cells of an instruction: its canonical word, then its parameters (30_encoding.md R30, R44). -/
def encodeCode (i : Instr) (params : List Int) : Code :=
  ⟨encode i, params⟩

/-- The host's view of the decoder (log 2): `w` is the value of the instruction word's one cell. An instruction of the table
is one word, and parameter cells are not decoded (30_encoding.md R30), so `nbits` adds nothing. -/
def decodeTableWord (nbits w : Nat) : Option Instr :=
  let _ := nbits
  (decode (w : Int)).toOption

end Sys2Proof
end

