-- ==== Sys2Proof/Machine/Ops.lean ====
section
/-! DEFINITION. The named operations over memory and state: the memory's canonical form, MemRead and MemWrite, one setter per
field, fetching an instruction, the next instruction pointer, and raising a fault. -/

namespace Sys2Proof.Machine

/-! ## The memory array (10_state.md R13, 20_memory.md R20) -/

/-- What a cell of `[0, N)` that is not listed holds (log 4). -/
def Memory.unlisted : Int := 0

/-- The value listed for an address, or `Memory.unlisted`. -/
def lookupCell : List Cell → Nat → Int
  | [], _ => Memory.unlisted
  | (b, v) :: cs, a => if b = a then v else lookupCell cs a

/-- The list without the entries of an address. -/
def removeCell : List Cell → Nat → List Cell
  | [], _ => []
  | c :: cs, a => if c.1 = a then removeCell cs a else c :: removeCell cs a

/-- The list with a new entry before the first entry of a greater address. -/
def insertCell (a : Nat) (v : Int) : List Cell → List Cell
  | [] => [(a, v)]
  | c :: cs => if a < c.1 then (a, v) :: c :: cs else c :: insertCell a v cs

/-- The list with one cell changed, in canonical form: a cell that holds `Memory.unlisted` is not listed. -/
def updateCell (cs : List Cell) (a : Nat) (v : Int) : List Cell :=
  if v = Memory.unlisted then removeCell cs a else insertCell a v (removeCell cs a)

/-- Addresses strictly rising, each from `lo` on and below `hi`, no entry equal to `Memory.unlisted`. -/
def cellsCanonical : List Cell → Nat → Nat → Bool
  | [], _, _ => true
  | c :: cs, lo, hi => decide (lo ≤ c.1) && decide (c.1 < hi) && decide (c.2 ≠ Memory.unlisted) && cellsCanonical cs (c.1 + 1) hi

/-- The memory's one canonical form, so that equal memories are equal data. -/
def Memory.wf (m : Memory) : Bool :=
  cellsCanonical m.cells 0 m.size

/-- An address is valid if and only if `0 <= a < N` (20_memory.md R20). -/
abbrev Memory.InRange (m : Memory) (a : Int) : Prop :=
  0 ≤ a ∧ a < (m.size : Int)

/-- The cell at an address, if there is one: the model's one read of memory (20_memory.md R20). -/
def Memory.read? (m : Memory) (a : Int) : Option Int :=
  if m.InRange a then some (lookupCell m.cells a.toNat) else none

/-- The memory with the cell at a valid address changed: the model's one write (20_memory.md R20). -/
def Memory.write? (m : Memory) (a : Int) (v : Int) : Option Memory :=
  if m.InRange a then some { m with cells := updateCell m.cells a.toNat v } else none

/-- The cells of a list of integers from address `a` on. -/
def cellsFrom : List Int → Nat → List Cell
  | [], _ => []
  | v :: vs, a => if v = Memory.unlisted then cellsFrom vs (a + 1) else (a, v) :: cellsFrom vs (a + 1)

/-- The memory that holds a list of integers, one per cell from address 0; `N` is their count (70_reset_and_hazards.md R106). -/
def Memory.ofList (vs : List Int) : Memory :=
  ⟨vs.length, cellsFrom vs 0⟩

/-- The integers a memory holds, in address order. -/
def Memory.toList (m : Memory) : List Int :=
  (List.range m.size).map (lookupCell m.cells)

/-! ## One setter per field -/

/-- The state with another memory. -/
def State.setMem (s : State) (m : Memory) : State := { s with mem := m }

/-- The state with another input queue. -/
def State.setQueue (s : State) (q : List Int) : State := { s with queue := q }

/-- `ip <- v` (00_scope.md R8). -/
def State.setIp (s : State) (v : Int) : State := { s with ip := v }

/-- `rs <- r`. -/
def State.setRs (s : State) (r : RunState) : State := { s with rs := r }

/-- The state with another output buffer. -/
def State.setOut (s : State) (o : List Int) : State := { s with out := o }

/-- `emit(v)`: append to the output buffer (00_scope.md R8). -/
def State.emit (s : State) (v : Int) : State := s.setOut (s.out ++ [v])

/-! ## Faults (60_exceptions.md R85 to R89) -/

/-- The kind of a fault (60_exceptions.md R85). -/
def Fault.kind : Fault → FaultKind
  | .invalidOpcode _ _ => .invalidOpcode
  | .invalidAddressingMode _ _ _ => .invalidAddressingMode
  | .memoryAccessFault _ _ _ => .memoryAccessFault
  | .widthExceeded _ => .widthExceeded

/-- The code of a fault kind (60_exceptions.md R85). -/
def FaultKind.code : FaultKind → Nat
  | .invalidOpcode => 1
  | .invalidAddressingMode => 2
  | .memoryAccessFault => 3
  | .widthExceeded => 4

/-- The `ip` of a fault report (60_exceptions.md R86). -/
def Fault.ip : Fault → Int
  | .invalidOpcode ip _ => ip
  | .invalidAddressingMode ip _ _ => ip
  | .memoryAccessFault ip _ _ => ip
  | .widthExceeded ip => ip

/-- The fault report of a decode fault at `ip` (60_exceptions.md R86). -/
def DecodeFault.at (e : DecodeFault) (ip : Int) : Fault :=
  match e with
  | .invalidOpcode w => .invalidOpcode ip w
  | .invalidAddressingMode w bad => .invalidAddressingMode ip w bad

/-- Raising a fault, the one shared operation: the invocation ends with the report and nothing else. There is no handler, no
vector, no saved register and no mode change (60_exceptions.md R88), and no return (R89). -/
def raise (f : Fault) : Host.Outcome State Fault Refusal :=
  .fault f

/-- The outcome of a step's phases: the state they leave, or the fault that the first failing check raises. -/
def finish : Except Fault State → Host.Outcome State Fault Refusal
  | .ok s => .next s
  | .error f => raise f

/-! ## Memory access, fetch and the next instruction pointer -/

/-- `MemRead(a, 1)`, naming the access for the fault report (20_memory.md R20, 60_exceptions.md R86). -/
def memRead (s : State) (a : Int) (acc : Access) : Except Fault Int :=
  match s.mem.read? a with
  | some v => .ok v
  | none => .error (.memoryAccessFault s.ip a acc)

/-- `MemWrite(a, 1, v)` (20_memory.md R20). -/
def memWrite (s : State) (a : Int) (v : Int) (acc : Access) : Except Fault State :=
  match s.mem.write? a v with
  | some m => .ok (s.setMem m)
  | none => .error (.memoryAccessFault s.ip a acc)

/-- The range check of an address that is used but not read (40_execution_cycle.md R51, R54). -/
def checkRange (s : State) (a : Int) (acc : Access) : Except Fault Int :=
  if s.mem.InRange a then .ok a else .error (.memoryAccessFault s.ip a acc)

/-- Fetch and decode, phases 1 and 2 of a step: no parameter cell is read before the word has decoded
(40_execution_cycle.md R47, R48, R49). -/
def fetchInstr (s : State) : Except Fault Instr := do
  let w ← memRead s s.ip .fetch
  match decode w with
  | .ok i => .ok i
  | .error e => .error (DecodeFault.at e s.ip)

/-- The sequential advance, `ip + 1 + R + W` (40_execution_cycle.md R54). -/
def advance (s : State) (op : Opcode) : State :=
  s.setIp (s.ip + op.length)

/-- The control-flow multiplexer for a jump: the checked target when taken, else the sequential advance
(40_execution_cycle.md R54, 43_jumps.md R72). -/
def jumpOrAdvance (s : State) (op : Opcode) (taken : Bool) (target : Int) : Except Fault State :=
  if taken then do
    let b ← checkRange s target .jump
    .ok (s.setIp b)
  else .ok (advance s op)

/-- What a step does while no invocation is in progress: nothing. The engine leaves AWAITING_INPUT only when the host invokes
`run` again, and HALTED is final (60_exceptions.md R96). DESIGN CHOICE (log 3). -/
def idle (s : State) : Host.Outcome State Fault Refusal :=
  .next s

/-- A memory of at least `n` cells; the new ones hold `Memory.unlisted`. -/
def Memory.growTo (m : Memory) (n : Nat) : Memory :=
  { m with size := max m.size n }

/-- The memory with a list of integers stored from address `a` on, in cells that exist. -/
def Memory.storeList (m : Memory) : Nat → List Int → Memory
  | _, [] => m
  | a, v :: vs => Memory.storeList { m with cells := updateCell m.cells a v } (a + 1) vs

/-- The load that `State.withFetchWord` stands for (log 2): the run-state is RUNNING, a negative `ip` becomes 0, the memory is
long enough for the longest instruction at `ip` and for the cell that the word itself names (a POSITION parameter of 0 at
address 0 reads the word, and a jump then uses it as its target), and the word is stored with three parameters of zero. -/
def placeWord (s : State) (nbits w : Nat) : State :=
  let _ := nbits
  let a := s.ip.toNat
  let m := s.mem.growTo (max (a + 4) (w + 1))
  ((s.setMem (m.storeList a [(w : Int), 0, 0, 0])).setIp a).setRs .running

end Sys2Proof.Machine
end

