-- ==== Sys2Proof/Machine/Operands.lean ====
section
/-! DEFINITION. The operand forms: resolving a read parameter and the write target (30_encoding.md R34,
40_execution_cycle.md R50, R51), and the shape shared by the four instructions with two operands and a target. -/

namespace Sys2Proof.Machine

/-- The operand of read parameter `k`: the parameter cell first, then the cell it names under POSITION
(40_execution_cycle.md R50). -/
def readOperand (s : State) (k : Nat) (m : Mode) : Except Fault Int := do
  let p ← memRead s (s.ip + k) (.parameter k)
  match m with
  | .position => memRead s p (.operand k)
  | .immediate => .ok p

/-- The write target, parameter `k`: its value is the address, never mode-decoded, range-checked here, before any suspension
or effect (40_execution_cycle.md R51). -/
def writeTarget (s : State) (k : Nat) : Except Fault Int := do
  let t ← memRead s (s.ip + k) (.parameter k)
  checkRange s t .target

/-- ADD, MULT, LESS_THAN and EQUALS differ only in their opcode and ALU function: both operands, the target, one write, the
advance (40_execution_cycle.md R47). Every read precedes the write (20_memory.md R29). -/
def computeAndStore (op : Opcode) (f : Int → Int → Int) (m1 m2 : Mode) (s : State) : Except Fault State := do
  let a ← readOperand s 1 m1
  let b ← readOperand s 2 m2
  let t ← writeTarget s 3
  let s' ← memWrite s t (f a b) .target
  .ok (advance s' op)

/-- JUMP_IF_TRUE and JUMP_IF_FALSE differ only in their opcode and in which operands jump (43_jumps.md R70, R71). -/
def testAndJump (op : Opcode) (takes : Int → Bool) (m1 m2 : Mode) (s : State) : Except Fault State := do
  let a ← readOperand s 1 m1
  let b ← readOperand s 2 m2
  jumpOrAdvance s op (takes a) b

end Sys2Proof.Machine
end

