-- ==== Sys2Proof/Machine/Arithmetic.lean ====
section
/-! DEFINITION. ADD and MULT (41_arithmetic.md). -/

namespace Sys2Proof.Machine

/-- ADD: `dst = a + b` (41_arithmetic.md R61). -/
def execAdd (m1 m2 : Mode) (s : State) : Host.Outcome State Fault Refusal :=
  finish (computeAndStore .add aluAdd m1 m2 s)

/-- MULT: `dst = a * b` (41_arithmetic.md R62). -/
def execMult (m1 m2 : Mode) (s : State) : Host.Outcome State Fault Refusal :=
  finish (computeAndStore .mult aluMul m1 m2 s)

end Sys2Proof.Machine
end

