-- ==== Sys2Proof/Machine/Compare.lean ====
section
/-! DEFINITION. LESS_THAN and EQUALS (44_compare.md). -/

namespace Sys2Proof.Machine

/-- LESS_THAN: `dst = 1 if a<b else 0` (44_compare.md R75). -/
def execLessThan (m1 m2 : Mode) (s : State) : Host.Outcome State Fault Refusal :=
  finish (computeAndStore .lessThan aluLt m1 m2 s)

/-- EQUALS: `dst = 1 if a=b else 0` (44_compare.md R76). -/
def execEquals (m1 m2 : Mode) (s : State) : Host.Outcome State Fault Refusal :=
  finish (computeAndStore .equals aluEq m1 m2 s)

end Sys2Proof.Machine
end

