-- ==== Sys2Proof/Machine/Halt.lean ====
section
/-! DEFINITION. HALT (45_halt.md). -/

namespace Sys2Proof.Machine

/-- HALT: the run-state becomes HALTED; `ip` keeps the address of the HALT word, the spec's own choice (45_halt.md R80;
log 14). -/
def execHalt (s : State) : Host.Outcome State Fault Refusal :=
  .next (s.setRs .halted)

end Sys2Proof.Machine
end

