-- ==== Sys2Proof/Machine/InputOutput.lean ====
section
/-! DEFINITION. INPUT and OUTPUT (42_io.md). -/

namespace Sys2Proof.Machine

/-- INPUT's phases: the target is checked first; then an empty queue suspends with nothing else changed, and a non-empty one
gives its front to the target cell (42_io.md R65, 40_execution_cycle.md R51, R52). -/
def popAndStore (s : State) : Except Fault State := do
  let t ← writeTarget s 1
  match s.queue with
  | [] => .ok (s.setRs .awaitingInput)
  | x :: q => do
    let s' ← memWrite (s.setQueue q) t x .target
    .ok (advance s' .input)

/-- INPUT: `dst = next queued input` (42_io.md R65). -/
def execInput (s : State) : Host.Outcome State Fault Refusal :=
  finish (popAndStore s)

/-- OUTPUT's phases: the operand goes to the back of the output buffer (42_io.md R66). -/
def readAndEmit (m1 : Mode) (s : State) : Except Fault State := do
  let a ← readOperand s 1 m1
  .ok (advance (s.emit a) .output)

/-- OUTPUT: `emit a` (42_io.md R66). -/
def execOutput (m1 : Mode) (s : State) : Host.Outcome State Fault Refusal :=
  finish (readAndEmit m1 s)

end Sys2Proof.Machine
end

