-- ==== Sys2Proof/Machine/Jumps.lean ====
section
/-! DEFINITION. JUMP_IF_TRUE and JUMP_IF_FALSE (43_jumps.md). -/

namespace Sys2Proof.Machine

/-- JUMP_IF_TRUE: if the first operand is nonzero, `ip` becomes the second (43_jumps.md R70). -/
def execJumpIfTrue (m1 m2 : Mode) (s : State) : Host.Outcome State Fault Refusal :=
  finish (testAndJump .jumpIfTrue operandIsTrue m1 m2 s)

/-- JUMP_IF_FALSE: if the first operand is 0, `ip` becomes the second (43_jumps.md R71). -/
def execJumpIfFalse (m1 m2 : Mode) (s : State) : Host.Outcome State Fault Refusal :=
  finish (testAndJump .jumpIfFalse (fun a => !operandIsTrue a) m1 m2 s)

end Sys2Proof.Machine
end

