-- ==== Sys2Proof/Machine/Dispatch.lean ====
section
/-! DEFINITION. The dispatch: one arm per instruction (40_execution_cycle.md R53). -/

namespace Sys2Proof.Machine

/-- The phases of a step after decoding, for the instruction at `ip` (40_execution_cycle.md R47, phases 3 to 7). -/
def exec (i : Instr) (s : State) : Host.Outcome State Fault Refusal :=
  match i with
  | .add m1 m2 => Sys2Proof.Machine.execAdd m1 m2 s
  | .mult m1 m2 => Sys2Proof.Machine.execMult m1 m2 s
  | .input => Sys2Proof.Machine.execInput s
  | .output m1 => Sys2Proof.Machine.execOutput m1 s
  | .jumpIfTrue m1 m2 => Sys2Proof.Machine.execJumpIfTrue m1 m2 s
  | .jumpIfFalse m1 m2 => Sys2Proof.Machine.execJumpIfFalse m1 m2 s
  | .lessThan m1 m2 => Sys2Proof.Machine.execLessThan m1 m2 s
  | .equals m1 m2 => Sys2Proof.Machine.execEquals m1 m2 s
  | .halt => Sys2Proof.Machine.execHalt s

end Sys2Proof.Machine
end

