-- ==== Sys2Proof/Machine/Step.lean ====
section
/-! DEFINITION. One step of the fetch-decode-execute engine (40_execution_cycle.md R47), and the placing of one instruction
where the next step fetches. -/

namespace Sys2Proof.Machine

/-- One step: while RUNNING, fetch, decode and execute the instruction at `ip`; else nothing (40_execution_cycle.md R47;
60_exceptions.md R96). -/
def step (s : State) : Host.Outcome State Fault Refusal :=
  match s.rs with
  | .running =>
    match fetchInstr s with
    | .ok i => exec i s
    | .error f => raise f
  | .awaitingInput => idle s
  | .halted => idle s

/-- The state with the instruction word `w`, and parameters of zero, loaded where the next step fetches (`placeWord`; log 2). -/
def State.withFetchWord (s : State) (nbits w : Nat) : State :=
  placeWord s nbits w

end Sys2Proof.Machine
end

