-- ==== Sys2Proof/Config.lean ====
section
/-! DEFINITION. What an implementation fixes: the parameters of 00_scope.md R5 that are not part of a loaded program.
The reference hardware leaves each of them unbounded. There is no free value: the CORE is deterministic
(70_reset_and_hazards.md R111). -/

namespace Sys2Proof.Config

/-- The named parameters of a realisation; `none` is `unbounded` (00_scope.md R5, 93_implementation_defined.md U1, U3, U4). -/
structure Realisation where
  /-- `WORD_BITS`: the width of a cell value -/
  wordBits : Option Nat
  /-- `ADDR_BITS`: the width of addresses (92_eei_decisions.md D31) -/
  addrBits : Option Nat
  /-- the number of values the input queue can hold -/
  queueCapacity : Option Nat
  /-- the number of values the output buffer can hold -/
  outputCapacity : Option Nat
  deriving DecidableEq, Repr

/-- This hardware: every parameter unbounded (00_scope.md R5). -/
def reference : Realisation :=
  ⟨none, none, none, none⟩

end Sys2Proof.Config
end

