-- ==== Sys2Proof/Machine/Invocation.lean ====
section
/-! DEFINITION. An invocation of the engine and the host's moves between invocations (40_execution_cycle.md R45, R46, R55,
R58; 60_exceptions.md R98, R100; 70_reset_and_hazards.md R105, R108; log 23). -/

namespace Sys2Proof.Machine

/-- The start of `run(M, Q, resume_at)`: `O` empty, `ip = resume_at`, RUNNING; any `resume_at` is accepted
(40_execution_cycle.md R46). -/
def invoke (m : Memory) (q : List Int) (resumeAt : Int) : State :=
  { mem := m, queue := q, ip := resumeAt, rs := .running, out := [] }

/-- A fresh launch of a program (70_reset_and_hazards.md R105, 10_state.md R19). -/
def launch (program inputs : List Int) : State :=
  invoke (Memory.ofList program) inputs 0

/-- The host appends inputs at the back of the queue, between invocations (60_exceptions.md R100). -/
def appendInput (s : State) (xs : List Int) : State :=
  s.setQueue (s.queue ++ xs)

/-- The host invokes `run` again with the returned triple and inputs appended (60_exceptions.md R98,
70_reset_and_hazards.md R108). -/
def resume (s : State) (xs : List Int) : State :=
  invoke s.mem (s.queue ++ xs) s.ip

/-- The three outcomes of an invocation, with the state that holds `O`, `ip`, `M` and `Q` for the first two
(40_execution_cycle.md R45). A fault returns none of them (60_exceptions.md R88). -/
inductive RunOutcome where
  | suspended (s : State)
  | halted (s : State)
  | faulted (f : Fault)
  deriving DecidableEq, Repr

/-- The outcome of an invocation that a suspension or a halt has ended (60_exceptions.md R99). -/
def endOf (s : State) : Option RunOutcome :=
  match s.rs with
  | .running => none
  | .awaitingInput => some (.suspended s)
  | .halted => some (.halted s)

/-- Steps until one suspends, halts or faults (40_execution_cycle.md R55, 60_exceptions.md R99). `none` is no outcome: the fuel
was not enough, which says nothing about the invocation (log 17). -/
def runFrom : Nat → State → Option RunOutcome
  | 0, s => endOf s
  | n + 1, s =>
    match endOf s with
    | some r => some r
    | none =>
      match step s with
      | .next t => runFrom n t
      | .fault f => some (.faulted f)
      | .refused _ => none

/-- `run(M, Q, resume_at)` under fuel (40_execution_cycle.md R45). -/
def run (fuel : Nat) (m : Memory) (q : List Int) (resumeAt : Int) : Option RunOutcome :=
  runFrom fuel (invoke m q resumeAt)

/-- An outcome with outputs of earlier invocations put before its own (40_execution_cycle.md R58). -/
def RunOutcome.afterOutputs (o : List Int) : RunOutcome → RunOutcome
  | .suspended s => .suspended (s.setOut (o ++ s.out))
  | .halted s => .halted (s.setOut (o ++ s.out))
  | .faulted f => .faulted f

end Sys2Proof.Machine
end

