-- ==== Sys2Proof/Machine/Bounded.lean ====
section
/-! DEFINITION. A realisation of finite `WORD_BITS`, `ADDR_BITS` or capacities (00_scope.md R5; 41_arithmetic.md R60;
93_implementation_defined.md U1, U3, U4; log 6). It is not the reference: it stops where a value would not fit, and never wraps,
truncates out of range or drops. -/

namespace Sys2Proof.Machine

/-- A value lies in `[-2^(WORD_BITS-1), 2^(WORD_BITS-1) - 1]` (41_arithmetic.md R60). -/
def fitsWidth (bits : Option Nat) (v : Int) : Bool :=
  match bits with
  | none => true
  | some n => decide (-(2 ^ (n - 1)) ≤ v) && decide (v ≤ 2 ^ (n - 1) - 1)

/-- A number of held values is within a capacity (00_scope.md R5). -/
def fitsCapacity (capacity : Option Nat) (n : Nat) : Bool :=
  match capacity with
  | none => true
  | some c => decide (n ≤ c)

/-- Every value that a step brings into memory fits: the cells of `t` that `s` does not hold (41_arithmetic.md R60). -/
def newCellsFit (bits : Option Nat) (s t : State) : Bool :=
  t.mem.cells.all fun c => s.mem.cells.contains c || fitsWidth bits c.2

/-- A memory of `n` cells has an address of `ADDR_BITS` bits for each (00_scope.md R5). -/
def fitsAddresses (bits : Option Nat) (n : Nat) : Bool :=
  match bits with
  | none => true
  | some b => decide (n ≤ 2 ^ b)

/-- The low `ADDR_BITS` bits of an address: what the memory port of a realisation sees (92_eei_decisions.md D31). -/
def truncateAddress (bits : Option Nat) (a : Int) : Int :=
  match bits with
  | none => a
  | some b => a % 2 ^ b

/-- A realisation's read of a cell: the full integer is range-checked before it is truncated (00_scope.md R5). -/
def boundedRead? (bits : Option Nat) (m : Memory) (a : Int) : Option Int :=
  if m.InRange a then m.read? (truncateAddress bits a) else none

/-- A realisation's write of a cell: the full integer is range-checked before it is truncated (00_scope.md R5). -/
def boundedWrite? (bits : Option Nat) (m : Memory) (a v : Int) : Option Memory :=
  if m.InRange a then m.write? (truncateAddress bits a) v else none

/-- One step of a realisation: the reference's step, stopped by WidthExceeded where its result does not fit, and refused where
the output buffer would overflow (41_arithmetic.md R60; 93_implementation_defined.md U4). Over a memory that fits `ADDR_BITS`,
`boundedRead?` and `boundedWrite?` are the reference's accesses, so the reference's step is the realisation's; over a longer one
it refuses first. DESIGN CHOICE: that refusal, and where the checks stand (log 6). -/
def boundedStep (r : Config.Realisation) (s : State) : Host.Outcome State Fault Refusal :=
  if fitsAddresses r.addrBits s.mem.size then
    match step s with
    | .next t =>
      if newCellsFit r.wordBits s t then
        if fitsCapacity r.outputCapacity t.out.length then .next t else .refused .capacityExceeded
      else raise (.widthExceeded s.ip)
    | .fault f => .fault f
    | .refused why => .refused why
  else .refused .addressesExceeded

/-- The host appends to a realisation's queue: every value must fit, and the queue must hold them (41_arithmetic.md R60;
93_implementation_defined.md U4). DESIGN CHOICE: no instruction executes then, and the spec does not say which `ip` the report
of a value that does not fit carries; the model reports the instance's `ip`. DESIGN CHOICE: where a value does not fit and the queue
would overflow too, the spec does not say which comes first; the model checks the width first (log 6). -/
def boundedAppend (r : Config.Realisation) (s : State) (xs : List Int) : Host.Outcome State Fault Refusal :=
  if xs.all (fitsWidth r.wordBits) then
    if fitsCapacity r.queueCapacity (s.queue.length + xs.length) then .next (appendInput s xs)
    else .refused .capacityExceeded
  else raise (.widthExceeded s.ip)

/-- The launch on a realisation: every value loaded from the text and every input must fit, and every cell needs an address
(41_arithmetic.md R60; 00_scope.md R5). DESIGN CHOICE: a value of the text reports `ip` 0, a memory with more cells than addresses is
refused, and the checks stand in the order text, addresses, inputs (log 6). -/
def boundedLaunch (r : Config.Realisation) (program inputs : List Int) : Host.Outcome State Fault Refusal :=
  if program.all (fitsWidth r.wordBits) then
    if fitsAddresses r.addrBits program.length then boundedAppend r (launch program []) inputs
    else .refused .addressesExceeded
  else raise (.widthExceeded 0)

end Sys2Proof.Machine
end

