-- ==== Sys2Proof/Machine/Pipeline.lean ====
section
/-! DEFINITION. The host's linear and ring procedures over several engine instances (60_exceptions.md R97, R101 to R103;
log 24). They are host software, not part of the CORE. -/

namespace Sys2Proof.Machine

/-- Why a pipeline fails (60_exceptions.md R101, R103). -/
inductive PipelineFailure where
  /-- a stage's invocation faulted -/
  | stageFaulted (stage : Nat) (f : Fault)
  /-- a stage of the linear pipeline suspended -/
  | stageSuspended (stage : Nat)
  /-- the last stage of the linear pipeline did not emit exactly one output -/
  | notOneOutput
  /-- the last stage of the ring halted having never emitted -/
  | noResult
  /-- there are no stages -/
  | noStages
  deriving DecidableEq, Repr

/-- The end of a linear pipeline: its result, or its failure. -/
inductive PipelineEnd where
  | result (v : Int)
  | failed (why : PipelineFailure)
  deriving DecidableEq, Repr

/-- The end of a ring: its result with the stages as they are when the loop stops, or its failure. -/
inductive RingEnd where
  | result (v : Int) (stages : List State)
  | failed (why : PipelineFailure)
  deriving DecidableEq, Repr

/-- The stages of a linear pipeline from number `i` on; `carry` is what follows the phase in stage `i`'s queue. Each stage runs
to HALT on a fresh copy of the program, in one invocation (60_exceptions.md R101). -/
def linearFrom (fuel : Nat) (program : List Int) : Nat → List Int → List Int → Option PipelineEnd
  | _, [], [v] => some (.result v)
  | _, [], _ => some (.failed .notOneOutput)
  | i, phase :: phases, carry =>
    match runFrom fuel (launch program (phase :: carry)) with
    | none => none
    | some (.faulted f) => some (.failed (.stageFaulted i f))
    | some (.suspended _) => some (.failed (.stageSuspended i))
    | some (.halted t) => linearFrom fuel program (i + 1) phases t.out

/-- The linear pipeline (60_exceptions.md R101). `none`: a stage gave no outcome within the fuel. -/
def linearPipeline (fuel : Nat) (program phases : List Int) (signal : Int) : Option PipelineEnd :=
  match phases with
  | [] => some (.failed .noStages)
  | _ => linearFrom fuel program 0 phases [signal]

/-- The stages of a ring before its first invocation: each its own copy of the program and its phase, stage 0 the signal too
(60_exceptions.md R102). -/
def ringStages (program phases : List Int) (signal : Int) : List State :=
  match phases with
  | [] => []
  | phase :: rest => launch program [phase, signal] :: rest.map fun p => launch program [p]

/-- The stages after stage `cur` returned `t`: it keeps its triple, and the next stage's queue gets its outputs
(60_exceptions.md R102). -/
def ringPass (stages : List State) (cur : Nat) (t : State) : List State :=
  (stages.set cur (resume t [])).modify ((cur + 1) % stages.length) fun next => appendInput next t.out

/-- The last value a stage has emitted: of this invocation, else of an earlier one (92_eei_decisions.md D26). -/
def lastEmitted (t : State) (earlier : Option Int) : Option Int :=
  match t.out.getLast? with
  | some v => some v
  | none => earlier

/-- The ring's stop, once the last stage has halted and its outputs have been passed on: the last value it has emitted is the
result; if there is none, the pipeline fails (60_exceptions.md R102, R103). -/
def ringStop (stages : List State) (last : Option Int) : RingEnd :=
  match last with
  | some v => .result v stages
  | none => .failed .noResult

/-- The ring's loop: at most `rounds` invocations, each of at most `fuel` steps. An invocation's outputs are passed on before the stop
test. `last` is the last value that stage `S - 1` has emitted (60_exceptions.md R102, R103). `none`: no end within the fuel, as in
a deadlock of all stages. -/
def ringLoop (fuel : Nat) : Nat → Nat → List State → Option Int → Option RingEnd
  | 0, _, _, _ => none
  | rounds + 1, cur, stages, last =>
    match stages[cur]? with
    | none => some (.failed .noStages)
    | some s =>
      match runFrom fuel s with
      | none => none
      | some (.faulted f) => some (.failed (.stageFaulted cur f))
      | some (.suspended t) =>
        ringLoop fuel rounds ((cur + 1) % stages.length) (ringPass stages cur t)
          (if cur + 1 = stages.length then lastEmitted t last else last)
      | some (.halted t) =>
        if cur + 1 = stages.length then some (ringStop (ringPass stages cur t) (lastEmitted t last))
        else ringLoop fuel rounds ((cur + 1) % stages.length) (ringPass stages cur t) last

/-- The ring pipeline (60_exceptions.md R102). -/
def ringPipeline (fuel rounds : Nat) (program phases : List Int) (signal : Int) : Option RingEnd :=
  ringLoop fuel rounds 0 (ringStages program phases signal) none

end Sys2Proof.Machine
end

