-- ==== Sys2Proof/Safety.lean ====
section
/-! DEFINITION. What counts as a sound state and as an operand that resolves, in the terms the statements use. -/

namespace Sys2Proof.Machine

/-- A sound state: the memory is in its canonical form, and `ip` is never negative and at most `N` (10_state.md R14: a taken jump
never writes an out-of-range value, a sequential advance can leave `ip = N`). -/
abbrev State.Inv (s : State) : Prop :=
  s.mem.wf = true ∧ 0 ≤ s.ip ∧ s.ip ≤ (s.mem.size : Int)

/-- Read parameter `k` of the instruction at `ip` resolves to `v` under mode `m` (40_execution_cycle.md R50). -/
def OperandIs (s : State) (k : Nat) (m : Mode) (v : Int) : Prop :=
  match m with
  | .immediate => s.mem.read? (s.ip + k) = some v
  | .position => ∃ p, s.mem.read? (s.ip + k) = some p ∧ s.mem.read? p = some v

/-- Parameter `k` of the instruction at `ip` is the write target `t`, an address in range (40_execution_cycle.md R51). -/
def TargetIs (s : State) (k : Nat) (t : Int) : Prop :=
  s.mem.read? (s.ip + k) = some t ∧ s.mem.InRange t

/-- `t` is `s` with exactly the cell `a` holding `v`: the same length, and every other cell as before (20_memory.md R24). -/
def MemoryChangedAt (s t : Memory) (a v : Int) : Prop :=
  t.size = s.size ∧ t.read? a = some v ∧ ∀ b, b ≠ a → t.read? b = s.read? b

/-- Everything but memory and `ip` is unchanged. -/
def SameButMemoryAndIp (s t : State) : Prop :=
  t.queue = s.queue ∧ t.rs = s.rs ∧ t.out = s.out

/-- The four instructions with two operands and a write target, at given modes. -/
def storingTwo (m1 m2 : Mode) : List Instr :=
  [.add m1 m2, .mult m1 m2, .lessThan m1 m2, .equals m1 m2]

/-- The two jumps, at given modes. -/
def jumps (m1 m2 : Mode) : List Instr :=
  [.jumpIfTrue m1 m2, .jumpIfFalse m1 m2]

end Sys2Proof.Machine
end

