-- ==== Sys2Proof/WellFormed.lean ====
section
/-! DEFINITION. What a well-formed instruction is, as the table of 30_encoding.md R42 gives it, without the
decoder's functions.
Every term of `Instr` is well formed by its type; a word, and an instruction written out in cells, may not be. -/

namespace Sys2Proof

/-- The non-negative words of at most five digits whose opcode field is `op` and whose digits `d2`, `d3`, `d4` are taken
from the three lists (30_encoding.md R42). -/
def patternWords (op : Int) (d2 d3 d4 : List Int) : List Int :=
  d4.flatMap fun x => d3.flatMap fun b => d2.map fun a => 10000 * x + 1000 * b + 100 * a + op

/-- A mode digit, `A` or `B` in a pattern. -/
def modeDigits : List Int := [0, 1]

/-- An ignored digit, `X` in a pattern. -/
def anyDigits : List Int := [0, 1, 2, 3, 4, 5, 6, 7, 8, 9]

/-- A digit that must be zero. -/
def zeroDigit : List Int := [0]

/-- The valid words of one opcode: the row of the table of 30_encoding.md R42. -/
def validWords : Opcode → List Int
  | .add => patternWords 1 modeDigits modeDigits anyDigits
  | .mult => patternWords 2 modeDigits modeDigits anyDigits
  | .input => patternWords 3 anyDigits zeroDigit zeroDigit
  | .output => patternWords 4 modeDigits zeroDigit zeroDigit
  | .jumpIfTrue => patternWords 5 modeDigits modeDigits zeroDigit
  | .jumpIfFalse => patternWords 6 modeDigits modeDigits zeroDigit
  | .lessThan => patternWords 7 modeDigits modeDigits anyDigits
  | .equals => patternWords 8 modeDigits modeDigits anyDigits
  | .halt => patternWords 99 zeroDigit zeroDigit zeroDigit

/-- The canonical words of one opcode: the valid words whose write-target digit is 0 (30_encoding.md R42). -/
def canonicalWords : Opcode → List Int
  | .add => patternWords 1 modeDigits modeDigits zeroDigit
  | .mult => patternWords 2 modeDigits modeDigits zeroDigit
  | .input => patternWords 3 zeroDigit zeroDigit zeroDigit
  | .output => patternWords 4 modeDigits zeroDigit zeroDigit
  | .jumpIfTrue => patternWords 5 modeDigits modeDigits zeroDigit
  | .jumpIfFalse => patternWords 6 modeDigits modeDigits zeroDigit
  | .lessThan => patternWords 7 modeDigits modeDigits zeroDigit
  | .equals => patternWords 8 modeDigits modeDigits zeroDigit
  | .halt => patternWords 99 zeroDigit zeroDigit zeroDigit

/-- A valid instruction word (30_encoding.md R42). -/
def wordWellFormed (w : Int) : Bool :=
  Opcode.all.any fun op => (validWords op).contains w

/-- A canonical instruction word (30_encoding.md R42). -/
def wordCanonical (w : Int) : Bool :=
  Opcode.all.any fun op => (canonicalWords op).contains w

/-- The word is valid and there are exactly `P` parameters. Any integer may stand in a parameter (30_encoding.md R30). -/
def Code.wellFormed (c : Code) : Bool :=
  Opcode.all.any fun op => (validWords op).contains c.word && c.params.length == op.params

/-- The decoder's contract on its mode list: exactly one mode per read parameter (30_encoding.md R35). The type of `Instr`
leaves no other term; the check is here so that the contract is said. -/
def Instr.wellFormed (i : Instr) : Bool :=
  i.modes.length == i.opcode.reads

end Sys2Proof
end

