-- ==== Sys2Proof/Certificates/Slice0/Obligations.lean ====
section
/-! DEFINITION. The statements for the provers. -/

open Sys2Proof Sys2Proof.Machine

/-! ## The decoder -/

/-- Words written out from the patterns of 30_encoding.md R42 decode to their instructions, one or more per family, and 82 does
not decode (90_conflicts.md C2). -/
def Obligations.SampleWordsDecode : Prop :=
  decode 1 = .ok (.add .position .position) ∧
  decode 1001 = .ok (.add .position .immediate) ∧
  decode 1002 = .ok (.mult .position .immediate) ∧
  decode 203 = .ok .input ∧
  decode 104 = .ok (.output .immediate) ∧
  decode 1005 = .ok (.jumpIfTrue .position .immediate) ∧
  decode 106 = .ok (.jumpIfFalse .immediate .position) ∧
  decode 90107 = .ok (.lessThan .immediate .position) ∧
  decode 11108 = .ok (.equals .immediate .immediate) ∧
  decode 99 = .ok .halt ∧
  decode 82 = .error (.invalidOpcode 82)

/-- Every valid word of an instruction, at each of the ten values of its ignored write-target digit, decodes to that instruction
(30_encoding.md section 4). That the digit is ignored at every value is the spec's own choice (D7, log 8). -/
def Obligations.EveryWordOfAnInstructionDecodesToIt : Prop :=
  ∀ (i : Instr) (x : Int), 0 ≤ x → x ≤ 9 → (i.opcode.hasTarget = false → x = 0) →
    decode (encodeWithTargetDigit i x) = .ok i

/-- A word that decodes is an encoding of the instruction it decodes to: no digit but the write target's is lost
(30_encoding.md section 4). -/
def Obligations.DecodedWordIsAnEncoding : Prop :=
  ∀ (w : Int) (i : Instr), decode w = .ok i →
    ∃ x, 0 ≤ x ∧ x ≤ 9 ∧ (i.opcode.hasTarget = false → x = 0) ∧ w = encodeWithTargetDigit i x

/-- The decoder accepts exactly the 181 words of the table of 30_encoding.md section 4 (R42), which WellFormed.lean lists without
the decoder. -/
def Obligations.DecodeAcceptsExactlyTheValidWords : Prop :=
  ∀ w : Int, (∃ i, decode w = .ok i) ↔ wordWellFormed w = true

/-- The decoder is injective on canonical words (30_encoding.md section 4; 90_conflicts.md C4). -/
def Obligations.DecodeInjectiveOnCanonicalWords : Prop :=
  ∀ w w' : Int, wordCanonical w = true → wordCanonical w' = true → decode w = decode w' → w = w'

/-- 30_encoding.md R38, whole. -/
def Obligations.IllegalOpcodeFieldFaults : Prop :=
  ∀ w : Int, 0 ≤ w → w % 100 ∉ ([1, 2, 3, 4, 5, 6, 7, 8, 99] : List Int) → decode w = .error (.invalidOpcode w)

/-- A negative word faults: the spec's own choice (92_eei_decisions.md D5; log 7). -/
def Obligations.NegativeWordFaults : Prop :=
  ∀ w : Int, w < 0 → decode w = .error (.invalidOpcode w)

/-- 30_encoding.md R39, whole: a read parameter with a mode digit of 2 to 9 faults, and the lowest such parameter is reported. -/
def Obligations.BadModeDigitFaults : Prop :=
  ∀ (w : Int) (op : Opcode), 0 ≤ w → w % 100 = op.value →
    (1 ≤ op.reads → 2 ≤ digit w 2 → decode w = .error (.invalidAddressingMode w (.parameter 1))) ∧
    (op.reads = 2 → digit w 2 ≤ 1 → 2 ≤ digit w 3 → decode w = .error (.invalidAddressingMode w (.parameter 2)))

/-- A nonzero digit above the last parameter's digit faults: the spec's own choice (92_eei_decisions.md D8; log 9). -/
def Obligations.ExcessDigitFaults : Prop :=
  ∀ (w : Int) (op : Opcode), w % 100 = op.value → (10 : Int) ^ (op.params + 2) ≤ w →
    (1 ≤ op.reads → digit w 2 ≤ 1) → (op.reads = 2 → digit w 3 ≤ 1) →
    decode w = .error (.invalidAddressingMode w .excess)

/-! ## Memory -/

/-- MemRead and MemWrite answer exactly for an address of `[0, N)`, checked as a full integer; a write is then read back, and any
other address is a MemoryAccessFault with that address (20_memory.md section 1). -/
def Obligations.MemoryPrimitivesCheckTheAddress : Prop :=
  ∀ (s : State) (a v : Int) (acc : Access),
    (s.mem.InRange a → (∃ x, s.mem.read? a = some x ∧ memRead s a acc = .ok x) ∧
      ∃ t, memWrite s a v acc = .ok t ∧ memRead t a acc = .ok v) ∧
    (¬ s.mem.InRange a → memRead s a acc = .error (.memoryAccessFault s.ip a acc) ∧
      memWrite s a v acc = .error (.memoryAccessFault s.ip a acc))

/-- 20_memory.md R24, whole: a read answers exactly the cell's current value, and no state, so it has no side effect by its type;
a write changes exactly the addressed cell, and nothing of the queue, the output or another field. -/
def Obligations.WriteChangesExactlyTheAddressedCell : Prop :=
  (∀ (s : State) (a v : Int) (acc : Access), memRead s a acc = .ok v ↔ s.mem.read? a = some v) ∧
  (∀ (s t : State) (a v : Int) (acc : Access), memWrite s a v acc = .ok t →
    MemoryChangedAt s.mem t.mem a v ∧ SameButMemoryAndIp s t ∧ t.ip = s.ip)

/-- 10_state.md R13, whole: the length is fixed at load and no step changes it, a cell exists exactly for `0 <= a < N`, and the
array that holds the data is the one an instruction is fetched from. -/
def Obligations.MemoryLengthIsFixed : Prop :=
  (∀ program inputs : List Int, (launch program inputs).mem.size = program.length) ∧
  (∀ s t : State, step s = .next t → t.mem.size = s.mem.size) ∧
  (∀ (m : Memory) (a : Int), (∃ v, m.read? a = some v) ↔ 0 ≤ a ∧ a < m.size) ∧
  (∀ (s : State) (i : Instr), fetchInstr s = .ok i → ∃ w, s.mem.read? s.ip = some w ∧ decode w = .ok i)

/-- Two memories in canonical form with the same length and cells are the same data: the model's own representation (log 4). -/
def Obligations.CanonicalMemoriesWithEqualCellsAreEqual : Prop :=
  ∀ m m' : Memory, m.wf = true → m'.wf = true → m.size = m'.size → (∀ a, m.read? a = m'.read? a) → m = m'

/-! ## Launch and the invariant -/

/-- The state at reset: `ip` 0, RUNNING, nothing emitted (10_state.md section 3), and the empty memory and queue that the model
chose for a reset without a program (log 1); it is sound. -/
def Obligations.ResetStateIsSound : Prop :=
  State.reset.Inv ∧ State.reset.ip = 0 ∧ State.reset.rs = .running ∧ State.reset.out = [] ∧
  State.reset.queue = [] ∧ State.reset.mem.size = 0

/-- A fresh launch gives every piece of state its value: one integer of the program per cell, the host's inputs, `ip` 0, RUNNING,
nothing emitted (10_state.md section 3); and the state is sound. -/
def Obligations.LaunchLoadsTheProgram : Prop :=
  ∀ program inputs : List Int,
    (launch program inputs).mem.size = program.length ∧
    (∀ k : Nat, k < program.length → (launch program inputs).mem.read? k = program[k]?) ∧
    (launch program inputs).queue = inputs ∧ (launch program inputs).ip = 0 ∧ (launch program inputs).rs = .running ∧
    (launch program inputs).out = [] ∧ (launch program inputs).Inv

/-- Every step keeps the state sound: the memory in canonical form and `ip` in `[0, N]` (10_state.md section 2: never negative, a
taken jump in range, a sequential advance at most `N`; log 4 for the form). -/
def Obligations.StepKeepsStateSound : Prop :=
  ∀ s t : State, s.Inv → step s = .next t → t.Inv

/-! ## The step -/

/-- 40_execution_cycle.md R49, whole: while RUNNING, the fetched word decides the step. If it decodes, the step is that
instruction's execution; if not, the step is that decode fault, whatever the parameter cells hold. The `ip` in the report is not
claimed here (D15, log 15). -/
def Obligations.StepRunsTheDecodedInstruction : Prop :=
  ∀ (s : State) (w : Int), s.rs = .running → s.mem.read? s.ip = some w →
    (∀ i, decode w = .ok i → step s = exec i s) ∧
    (∀ e, decode w = .error e → ∃ ip, step s = .fault (DecodeFault.at e ip))

/-- A fetch outside `[0, N)` faults with `address = ip`, and there is no wrap-around; that a `resume_at` out of range is accepted
and faults here is the spec's own choice (92_eei_decisions.md D13; log 13). -/
def Obligations.FetchOutsideMemoryFaults : Prop :=
  ∀ s : State, s.rs = .running → ¬ s.mem.InRange s.ip → step s = .fault (.memoryAccessFault s.ip s.ip .fetch)

/-- Outside RUNNING a step changes nothing: the model's choice (log 3). -/
def Obligations.StepOutsideRunningChangesNothing : Prop :=
  ∀ s : State, s.rs ≠ .running → step s = .next s

/-- The placed word is the one the next step runs: the model's convention (log 2). -/
def Obligations.PlacedWordRunsNext : Prop :=
  ∀ (s : State) (nbits w : Nat) (i : Instr), decodeTableWord nbits w = some i →
    step (s.withFetchWord nbits w) = exec i (s.withFetchWord nbits w)

/-! ## What each instruction does -/

/-- ADD (41_arithmetic.md section 2). The exact sum rests on unbounded cells (92_eei_decisions.md D1; log 5). -/
def Obligations.AddStoresTheSum : Prop :=
  ∀ (s : State) (m1 m2 : Mode) (a b t : Int), OperandIs s 1 m1 a → OperandIs s 2 m2 b → TargetIs s 3 t →
    ∃ u, exec (.add m1 m2) s = .next u ∧ MemoryChangedAt s.mem u.mem t (a + b) ∧ u.ip = s.ip + 4 ∧ SameButMemoryAndIp s u

/-- MULT (41_arithmetic.md section 2). The exact product rests on unbounded cells (92_eei_decisions.md D1; log 5). -/
def Obligations.MultStoresTheProduct : Prop :=
  ∀ (s : State) (m1 m2 : Mode) (a b t : Int), OperandIs s 1 m1 a → OperandIs s 2 m2 b → TargetIs s 3 t →
    ∃ u, exec (.mult m1 m2) s = .next u ∧ MemoryChangedAt s.mem u.mem t (a * b) ∧ u.ip = s.ip + 4 ∧ SameButMemoryAndIp s u

/-- LESS_THAN (44_compare.md). -/
def Obligations.LessThanStoresTheTruthValue : Prop :=
  ∀ (s : State) (m1 m2 : Mode) (a b t : Int), OperandIs s 1 m1 a → OperandIs s 2 m2 b → TargetIs s 3 t →
    ∃ u, exec (.lessThan m1 m2) s = .next u ∧ MemoryChangedAt s.mem u.mem t (if a < b then 1 else 0) ∧
      u.ip = s.ip + 4 ∧ SameButMemoryAndIp s u

/-- EQUALS (44_compare.md). -/
def Obligations.EqualsStoresTheTruthValue : Prop :=
  ∀ (s : State) (m1 m2 : Mode) (a b t : Int), OperandIs s 1 m1 a → OperandIs s 2 m2 b → TargetIs s 3 t →
    ∃ u, exec (.equals m1 m2) s = .next u ∧ MemoryChangedAt s.mem u.mem t (if a = b then 1 else 0) ∧
      u.ip = s.ip + 4 ∧ SameButMemoryAndIp s u

/-- INPUT with a non-empty queue (42_io.md): the front is popped into the target cell. -/
def Obligations.InputStoresTheFrontOfTheQueue : Prop :=
  ∀ (s : State) (t x : Int) (q : List Int), TargetIs s 1 t → s.queue = x :: q →
    ∃ u, exec .input s = .next u ∧ MemoryChangedAt s.mem u.mem t x ∧ u.queue = q ∧ u.ip = s.ip + 2 ∧
      u.rs = s.rs ∧ u.out = s.out

/-- 40_execution_cycle.md R52, whole, where the phases before it raise nothing: INPUT with an empty queue ends in AWAITING_INPUT
with memory, queue, output and `ip` as they were; resumed with more inputs the step runs that INPUT; and no other step suspends. -/
def Obligations.InputSuspendsOnEmptyQueue : Prop :=
  (∀ (s : State) (w t : Int), s.rs = .running → s.mem.read? s.ip = some w → decode w = .ok .input → TargetIs s 1 t →
    s.queue = [] →
      step s = .next { s with rs := .awaitingInput } ∧
      ∀ xs, step (resume { s with rs := .awaitingInput } xs) = exec .input (resume { s with rs := .awaitingInput } xs)) ∧
  (∀ s u : State, s.rs = .running → step s = .next u → u.rs = .awaitingInput →
    s.queue = [] ∧ ∃ w, s.mem.read? s.ip = some w ∧ decode w = .ok .input)

/-- OUTPUT (42_io.md): the operand goes to the back of the output buffer. -/
def Obligations.OutputAppendsTheOperand : Prop :=
  ∀ (s : State) (m1 : Mode) (a : Int), OperandIs s 1 m1 a →
    exec (.output m1) s = .next { s with out := s.out ++ [a], ip := s.ip + 2 }

/-- JUMP_IF_TRUE (43_jumps.md): taken on any nonzero operand to a target in range; not taken on 0, whatever the target. -/
def Obligations.JumpIfTrueSelectsTheNextIp : Prop :=
  ∀ (s : State) (m1 m2 : Mode) (a b : Int), OperandIs s 1 m1 a → OperandIs s 2 m2 b →
    (a ≠ 0 → s.mem.InRange b → exec (.jumpIfTrue m1 m2) s = .next { s with ip := b }) ∧
    (a = 0 → exec (.jumpIfTrue m1 m2) s = .next { s with ip := s.ip + 3 })

/-- JUMP_IF_FALSE (43_jumps.md): taken on 0 to a target in range; not taken on any nonzero operand, whatever the target. -/
def Obligations.JumpIfFalseSelectsTheNextIp : Prop :=
  ∀ (s : State) (m1 m2 : Mode) (a b : Int), OperandIs s 1 m1 a → OperandIs s 2 m2 b →
    (a = 0 → s.mem.InRange b → exec (.jumpIfFalse m1 m2) s = .next { s with ip := b }) ∧
    (a ≠ 0 → exec (.jumpIfFalse m1 m2) s = .next { s with ip := s.ip + 3 })

/-- HALT (45_halt.md): the run-state becomes HALTED; memory, queue and output stay. It does not read the HALTED `ip`, which is
the spec's own choice (92_eei_decisions.md D14; log 14). -/
def Obligations.HaltEndsTheInvocation : Prop :=
  ∀ s : State, ∃ u, exec .halt s = .next u ∧ u.rs = .halted ∧ u.mem = s.mem ∧ u.queue = s.queue ∧ u.out = s.out

/-! ## Frames -/

/-- The frame of ADD, MULT, LESS_THAN and EQUALS: whenever one answers a next state, the queue, the run-state, the output and the
memory's length are unchanged, and every cell but the one parameter 3 names reads as before (40_execution_cycle.md section 2). -/
def Obligations.StoringInstructionsFrame : Prop :=
  ∀ (m1 m2 : Mode) (i : Instr) (s u : State), i ∈ storingTwo m1 m2 → exec i s = .next u →
    SameButMemoryAndIp s u ∧ u.mem.size = s.mem.size ∧
    ∀ t, s.mem.read? (s.ip + 3) = some t → ∀ b, b ≠ t → u.mem.read? b = s.mem.read? b

/-- The frame of INPUT, suspending or not: the output and the memory's length are unchanged, the queue loses at most its front,
the run-state changes only on an empty queue, and every cell but the one parameter 1 names reads as before; on an empty queue
every cell does, and `ip` stays (40_execution_cycle.md section 2, 42_io.md). -/
def Obligations.InputFrame : Prop :=
  ∀ s u : State, exec .input s = .next u →
    u.out = s.out ∧ u.mem.size = s.mem.size ∧ u.queue = s.queue.tail ∧
    (s.queue ≠ [] → u.rs = s.rs) ∧ (s.queue = [] → u.mem = s.mem ∧ u.ip = s.ip) ∧
    ∀ t, s.mem.read? (s.ip + 1) = some t → ∀ b, b ≠ t → u.mem.read? b = s.mem.read? b

/-- The frame of OUTPUT, the jumps and HALT, which store nothing: all of memory and the queue are unchanged, the output changes by
OUTPUT alone, the run-state by HALT alone (20_memory.md section 2, 40_execution_cycle.md section 2). -/
def Obligations.NonStoringInstructionsFrame : Prop :=
  ∀ (i : Instr) (s u : State), i.opcode.hasTarget = false → exec i s = .next u →
    u.mem = s.mem ∧ (∀ b, u.mem.read? b = s.mem.read? b) ∧ u.queue = s.queue ∧
    (i.opcode ≠ .output → u.out = s.out) ∧ (i.opcode ≠ .halt → u.rs = s.rs)

/-! ## Faults -/

/-- ADD, MULT, LESS_THAN and EQUALS: each failing check with every earlier one passed gives its own MemoryAccessFault
(60_exceptions.md section 2). The order and the report are the spec's own choice (D10, D15; log 10, log 15). -/
def Obligations.StoringInstructionsFaultInOrder : Prop :=
  ∀ (m1 m2 : Mode) (i : Instr) (s : State), i ∈ storingTwo m1 m2 →
    (s.mem.read? (s.ip + 1) = none → exec i s = .fault (.memoryAccessFault s.ip (s.ip + 1) (.parameter 1))) ∧
    (∀ p, m1 = .position → s.mem.read? (s.ip + 1) = some p → s.mem.read? p = none →
      exec i s = .fault (.memoryAccessFault s.ip p (.operand 1))) ∧
    (∀ a, OperandIs s 1 m1 a → s.mem.read? (s.ip + 2) = none →
      exec i s = .fault (.memoryAccessFault s.ip (s.ip + 2) (.parameter 2))) ∧
    (∀ a p, OperandIs s 1 m1 a → m2 = .position → s.mem.read? (s.ip + 2) = some p → s.mem.read? p = none →
      exec i s = .fault (.memoryAccessFault s.ip p (.operand 2))) ∧
    (∀ a b, OperandIs s 1 m1 a → OperandIs s 2 m2 b → s.mem.read? (s.ip + 3) = none →
      exec i s = .fault (.memoryAccessFault s.ip (s.ip + 3) (.parameter 3))) ∧
    (∀ a b t, OperandIs s 1 m1 a → OperandIs s 2 m2 b → s.mem.read? (s.ip + 3) = some t → ¬ s.mem.InRange t →
      exec i s = .fault (.memoryAccessFault s.ip t .target))

/-- INPUT: its target cell, then its target address, whether or not the queue is empty; checking before the suspension is the
spec's own choice (92_eei_decisions.md D11; log 11). -/
def Obligations.InputChecksItsTargetBeforeSuspending : Prop :=
  ∀ s : State,
    (s.mem.read? (s.ip + 1) = none → exec .input s = .fault (.memoryAccessFault s.ip (s.ip + 1) (.parameter 1))) ∧
    (∀ t, s.mem.read? (s.ip + 1) = some t → ¬ s.mem.InRange t →
      exec .input s = .fault (.memoryAccessFault s.ip t .target))

/-- OUTPUT: its parameter cell, then the POSITION operand's address (42_io.md; the report is D15, log 15). -/
def Obligations.OutputFaultsInOrder : Prop :=
  ∀ (m1 : Mode) (s : State),
    (s.mem.read? (s.ip + 1) = none →
      exec (.output m1) s = .fault (.memoryAccessFault s.ip (s.ip + 1) (.parameter 1))) ∧
    (∀ p, m1 = .position → s.mem.read? (s.ip + 1) = some p → s.mem.read? p = none →
      exec (.output m1) s = .fault (.memoryAccessFault s.ip p (.operand 1)))

/-- The jumps: the checks of both operands in order, then a taken jump's target; a target out of range faults at the jump, which is
the spec's own choice (92_eei_decisions.md D12, D10, D15; log 12, log 10, log 15). -/
def Obligations.JumpsFaultInOrder : Prop :=
  ∀ (m1 m2 : Mode) (i : Instr) (s : State), i ∈ jumps m1 m2 →
    (s.mem.read? (s.ip + 1) = none → exec i s = .fault (.memoryAccessFault s.ip (s.ip + 1) (.parameter 1))) ∧
    (∀ p, m1 = .position → s.mem.read? (s.ip + 1) = some p → s.mem.read? p = none →
      exec i s = .fault (.memoryAccessFault s.ip p (.operand 1))) ∧
    (∀ a, OperandIs s 1 m1 a → s.mem.read? (s.ip + 2) = none →
      exec i s = .fault (.memoryAccessFault s.ip (s.ip + 2) (.parameter 2))) ∧
    (∀ a p, OperandIs s 1 m1 a → m2 = .position → s.mem.read? (s.ip + 2) = some p → s.mem.read? p = none →
      exec i s = .fault (.memoryAccessFault s.ip p (.operand 2))) ∧
    (∀ a b, OperandIs s 1 m1 a → OperandIs s 2 m2 b → (i = .jumpIfTrue m1 m2 ↔ a ≠ 0) → ¬ s.mem.InRange b →
      exec i s = .fault (.memoryAccessFault s.ip b .jump))

/-- An instruction answers a next state exactly when every check of its own passes (60_exceptions.md section 2: a step faults if any
of the checks fails, whatever their order). -/
def Obligations.InstructionsCompleteExactlyWhenTheirChecksPass : Prop :=
  ∀ (s : State) (m1 m2 : Mode),
    (∀ i ∈ storingTwo m1 m2, (∃ u, exec i s = .next u) ↔
      (∃ a, OperandIs s 1 m1 a) ∧ (∃ b, OperandIs s 2 m2 b) ∧ ∃ t, TargetIs s 3 t) ∧
    ((∃ u, exec .input s = .next u) ↔ ∃ t, TargetIs s 1 t) ∧
    ((∃ u, exec (.output m1) s = .next u) ↔ ∃ a, OperandIs s 1 m1 a) ∧
    (∀ i ∈ jumps m1 m2, (∃ u, exec i s = .next u) ↔
      ∃ a b, OperandIs s 1 m1 a ∧ OperandIs s 2 m2 b ∧ ((i = .jumpIfTrue m1 m2 ↔ a ≠ 0) → s.mem.InRange b)) ∧
    (∃ u, exec .halt s = .next u)

/-- A step raises only the three faults of the CORE, each reported at the executing instruction, and never the model-only
WidthExceeded (60_exceptions.md section 1; the report's `ip` is D15, log 15). -/
def Obligations.StepRaisesOnlyTheThreeFaults : Prop :=
  ∀ (s : State) (f : Fault), step s = .fault f →
    f.ip = s.ip ∧ (f.kind = .invalidOpcode ∨ f.kind = .invalidAddressingMode ∨ f.kind = .memoryAccessFault)

/-- No step is refused: every instruction has its meaning, and the only outcomes are a next state and a fault
(40_execution_cycle.md section 1). -/
def Obligations.StepIsNeverRefused : Prop :=
  ∀ (s : State) (why : Refusal), step s ≠ .refused why

/-! ## Rules over the whole machine -/

/-- In every step the queue loses at most its front, and only with the output unchanged; the output gains at most one value at its
back (42_io.md, last rule; 10_state.md section 2). -/
def Obligations.QueueOnlyShrinksAndOutputOnlyGrows : Prop :=
  ∀ s t : State, step s = .next t →
    (t.queue = s.queue ∧ (t.out = s.out ∨ ∃ v, t.out = s.out ++ [v])) ∨ (∃ x, s.queue = x :: t.queue) ∧ t.out = s.out

/-- A running step stops running only at HALT or at an INPUT that finds the queue empty, and it then changes nothing but the
run-state (60_exceptions.md section 7: the end of a run; that `ip` stays at HALT is D14, log 14). -/
def Obligations.OnlyHaltAndStarvedInputStopTheEngine : Prop :=
  ∀ s t : State, s.rs = .running → step s = .next t → t.rs ≠ .running →
    t = { s with rs := t.rs } ∧
    ∃ w, s.mem.read? s.ip = some w ∧
      ((decode w = .ok .halt ∧ t.rs = .halted) ∨ (decode w = .ok .input ∧ s.queue = [] ∧ t.rs = .awaitingInput))

/-- Invoking a halted engine again with what it returned halts at once with no outputs, memory and queue unchanged (45_halt.md,
last rule; it rests on the HALTED `ip`, the spec's own choice D14, log 14, only to re-invoke). -/
def Obligations.HaltedEngineHaltsAgain : Prop :=
  ∀ s t : State, s.rs = .running → step s = .next t → t.rs = .halted →
    ∃ u, step (invoke t.mem t.queue t.ip) = .next u ∧ u.rs = .halted ∧ u.out = [] ∧ u.mem = t.mem ∧ u.queue = t.queue ∧
      u.ip = t.ip

/-- A value that ADD or MULT writes over the next instruction's word is what the very next step fetches and runs (20_memory.md
section 4). -/
def Obligations.WrittenWordIsFetchedNext : Prop :=
  ∀ (s : State) (m1 m2 : Mode) (a b : Int), s.rs = .running → OperandIs s 1 m1 a → OperandIs s 2 m2 b →
    TargetIs s 3 (s.ip + 4) →
    (∀ j, decode (a + b) = .ok j → ∃ u, exec (.add m1 m2) s = .next u ∧ step u = exec j u) ∧
    (∀ j, decode (a * b) = .ok j → ∃ u, exec (.mult m1 m2) s = .next u ∧ step u = exec j u)

/-- A comparison's result, read by a jump from the cell it was written to: JUMP_IF_TRUE jumps exactly when the comparison held, and
JUMP_IF_FALSE exactly when it failed (44_compare.md, last rule). -/
def Obligations.ComparisonResultDrivesTheJumps : Prop :=
  ∀ (s u v : State) (m1 m2 m : Mode) (a b t d : Int), OperandIs s 1 m1 a → OperandIs s 2 m2 b → TargetIs s 3 t →
    v.mem = u.mem → v.mem.read? (v.ip + 1) = some t → OperandIs v 2 m d → v.mem.InRange d →
    (exec (.lessThan m1 m2) s = .next u →
      exec (.jumpIfTrue .position m) v = .next { v with ip := if a < b then d else v.ip + 3 } ∧
      exec (.jumpIfFalse .position m) v = .next { v with ip := if a < b then v.ip + 3 else d }) ∧
    (exec (.equals m1 m2) s = .next u →
      exec (.jumpIfTrue .position m) v = .next { v with ip := if a = b then d else v.ip + 3 } ∧
      exec (.jumpIfFalse .position m) v = .next { v with ip := if a = b then v.ip + 3 else d })

/-! ## Invocations -/

/-- Inputs that the host appends later change nothing of a step that does not suspend (40_execution_cycle.md section 3). -/
def Obligations.AppendedInputLeavesTheStepAlone : Prop :=
  ∀ (s t : State) (xs : List Int), s.rs = .running → step s = .next t → t.rs ≠ .awaitingInput →
    step (appendInput s xs) = .next (appendInput t xs)

/-- Resumption is transparent (40_execution_cycle.md section 3): if an invocation suspends, then with inputs appended the resumed
invocation ends as one that had them all from the start, with the outputs of the first part put first. -/
def Obligations.ResumptionIsTransparent : Prop :=
  ∀ (fuel fuel' : Nat) (s t : State) (xs : List Int) (r : RunOutcome), s.rs = .running →
    runFrom fuel s = some (.suspended t) → runFrom fuel' (resume t xs) = some r →
    ∃ n, runFrom n (appendInput s xs) = some (r.afterOutputs t.out)

/-- The outcome of an invocation does not depend on the fuel it is run under (40_execution_cycle.md section 2: there is no step
limit; log 17). -/
def Obligations.OutcomeDoesNotDependOnFuel : Prop :=
  ∀ (n k : Nat) (s : State) (r : RunOutcome), runFrom n s = some r → runFrom (n + k) s = some r

/-! ## Realisations and several instances -/

/-- The realisation with every parameter unbounded is the reference (00_scope.md section 3). -/
def Obligations.ReferenceRealisationIsTheStep : Prop :=
  ∀ s : State, boundedStep Config.reference s = step s

/-- A bounded realisation never computes another value: a next state of it is the reference's, every cell of it still fits
`WORD_BITS` if every cell fitted before, and its output stays within the capacity (41_arithmetic.md section 1; log 6). -/
def Obligations.BoundedStepNeverWraps : Prop :=
  ∀ (r : Config.Realisation) (s t : State), boundedStep r s = .next t →
    step s = .next t ∧
    ((∀ c ∈ s.mem.cells, fitsWidth r.wordBits c.2 = true) → ∀ c ∈ t.mem.cells, fitsWidth r.wordBits c.2 = true) ∧
    fitsCapacity r.outputCapacity t.out.length = true

/-- Passing a stage's outputs on in a ring touches that stage and the next one's queue, and no other stage (60_exceptions.md
section 6). -/
def Obligations.RingStagesShareNoState : Prop :=
  ∀ (stages : List State) (cur : Nat) (t : State) (k : Nat), k ≠ cur →
    (k ≠ (cur + 1) % stages.length → (ringPass stages cur t)[k]? = stages[k]?) ∧
    (k = (cur + 1) % stages.length → (ringPass stages cur t)[k]? = (stages[k]?).map fun s => appendInput s t.out)

/-- A finite `ADDR_BITS` never shows (00_scope.md section 3, 92_eei_decisions.md D31): over a memory that fits it, reading and writing
with the range check first and the truncation after are the reference's accesses at every integer address; a launch of the
realisation makes a memory that fits, and its steps keep it so. That a longer memory is refused is the model's choice (log 6). -/
def Obligations.FiniteAddressesNeverShow : Prop :=
  (∀ (bits : Option Nat) (m : Memory) (a v : Int), fitsAddresses bits m.size = true →
    boundedRead? bits m a = m.read? a ∧ boundedWrite? bits m a v = m.write? a v) ∧
  (∀ (r : Config.Realisation) (program inputs : List Int) (s : State), boundedLaunch r program inputs = .next s →
    fitsAddresses r.addrBits s.mem.size = true) ∧
  (∀ (r : Config.Realisation) (s t : State), boundedStep r s = .next t → fitsAddresses r.addrBits t.mem.size = true)

/-- The ring stops with a result only when its last stage has halted, and after that stage's outputs have been passed on: the stages
at the stop are those that `ringPass` leaves, and the result is the last value the stage emitted then, where it emitted one
(60_exceptions.md section 7; the result is the spec's own choice D26, log 24). -/
def Obligations.RingStopsAfterPassingTheLastOutputs : Prop :=
  ∀ (fuel rounds cur : Nat) (stages stages' : List State) (last : Option Int) (v : Int),
    ringLoop fuel rounds cur stages last = some (.result v stages') →
    ∃ (before : List State) (s t : State), before.length = stages.length ∧
      before[stages.length - 1]? = some s ∧ runFrom fuel s = some (.halted t) ∧
      stages' = ringPass before (stages.length - 1) t ∧ ∀ o x, t.out = o ++ [x] → v = x
end

