-- ==== Sys2Proof/Laws/Host.lean ====
section
/-! SUPPORT. The laws of a realisation's step and accesses, and of passing outputs on in a ring. -/

namespace Sys2Proof.Machine

/-- Truncation changes no address in range, over a memory that fits. -/
theorem truncateAddress_of_inRange {bits : Option Nat} {m : Memory} {a : Int} (hfit : fitsAddresses bits m.size = true)
    (ha : m.InRange a) : truncateAddress bits a = a := by
  cases bits with
  | none => rfl
  | some b =>
    have hsize : m.size ≤ 2 ^ b := by simpa [fitsAddresses] using hfit
    have hpow : (m.size : Int) ≤ 2 ^ b := by exact_mod_cast hsize
    exact Int.emod_eq_of_lt ha.1 (lt_of_lt_of_le ha.2 hpow)

/-- All that a realisation's step can do when it answers a next state. -/
theorem boundedStep_eq_next {r : Config.Realisation} {s t : State} :
    boundedStep r s = .next t ↔
      fitsAddresses r.addrBits s.mem.size = true ∧ step s = .next t ∧ newCellsFit r.wordBits s t = true ∧
        fitsCapacity r.outputCapacity t.out.length = true := by
  constructor
  · intro h
    unfold boundedStep raise at h
    repeat' split at h
    all_goals cases h
    exact ⟨‹_›, ‹_›, ‹_›, ‹_›⟩
  · rintro ⟨ha, hs, hw, ho⟩
    simp only [boundedStep, if_pos ha, hs, if_pos hw, if_pos ho]

/-- All that a launch on a realisation can do when it answers a state. -/
theorem boundedLaunch_eq_next {r : Config.Realisation} {program inputs : List Int} {s : State} :
    boundedLaunch r program inputs = .next s ↔
      program.all (fitsWidth r.wordBits) = true ∧ fitsAddresses r.addrBits program.length = true ∧
        inputs.all (fitsWidth r.wordBits) = true ∧ fitsCapacity r.queueCapacity inputs.length = true ∧
          s = appendInput (launch program []) inputs := by
  have hq : (launch program []).queue.length + inputs.length = inputs.length := by simp [launch, invoke]
  constructor
  · intro h
    unfold boundedLaunch boundedAppend raise at h
    rw [hq] at h
    repeat' split at h
    all_goals cases h
    exact ⟨‹_›, ‹_›, ‹_›, ‹_›, rfl⟩
  · rintro ⟨hp, ha, hi, hc, rfl⟩
    simp only [boundedLaunch, boundedAppend, hq, if_pos hp, if_pos ha, if_pos hi, if_pos hc]

/-- Passing outputs on keeps the number of stages. -/
@[simp] theorem ringPass_length (stages : List State) (cur : Nat) (t : State) :
    (ringPass stages cur t).length = stages.length := by
  simp [ringPass]

/-- The ring stops with the stages it was given. -/
theorem ringStop_eq_result {stages stages' : List State} {last : Option Int} {v : Int} :
    ringStop stages last = .result v stages' ↔ last = some v ∧ stages' = stages := by
  cases last <;> simp [ringStop, eq_comm]

end Sys2Proof.Machine
end

