-- ==== Sys2Proof/Laws/Memory.lean ====
section
/-! SUPPORT. The laws of the memory array: read after write, and that every memory operation keeps the canonical form. -/

namespace Sys2Proof.Machine

/-! ## Looking up after an update -/

theorem lookupCell_removeCell (cs : List Cell) (a b : Nat) :
    lookupCell (removeCell cs a) b = if b = a then Memory.unlisted else lookupCell cs b := by
  induction cs with
  | nil => simp [removeCell, lookupCell]
  | cons c cs ih =>
    by_cases hc : c.1 = a
    · by_cases hb : b = a
      · simpa [removeCell, hc, hb] using ih
      · have : ¬ a = b := fun h => hb h.symm
        simp [removeCell, lookupCell, hc, ih, hb, this]
    · by_cases hb : c.1 = b
      · have : ¬ b = a := fun h => hc (hb.trans h)
        simp only [removeCell, if_neg hc, lookupCell, if_pos hb, if_neg this]
      · simp [removeCell, lookupCell, hc, hb, ih]

theorem lookupCell_insertCell_removeCell (cs : List Cell) (a b : Nat) (v : Int) :
    lookupCell (insertCell a v (removeCell cs a)) b = if b = a then v else lookupCell cs b := by
  induction cs with
  | nil => simp [removeCell, insertCell, lookupCell, eq_comm]
  | cons c cs ih =>
    by_cases hc : c.1 = a
    · have key : ¬ b = a → ¬ c.1 = b := fun hb h => hb (h.symm.trans hc)
      by_cases hb : b = a
      · simpa [removeCell, hc, hb] using ih
      · simp only [removeCell, if_pos hc, ih, if_neg hb, lookupCell, if_neg (key hb)]
    · by_cases hlt : a < c.1
      · have hrest := lookupCell_removeCell cs a b
        by_cases hb : b = a
        · simp [removeCell, hc, insertCell, hlt, lookupCell, hb]
        · have : ¬ a = b := fun h => hb h.symm
          simp [removeCell, hc, insertCell, hlt, lookupCell, hb, this, hrest]
      · by_cases hb : c.1 = b
        · have : ¬ b = a := fun h => hc (hb.trans h)
          simp only [removeCell, if_neg hc, insertCell, if_neg hlt, lookupCell, if_pos hb, if_neg this]
        · simp [removeCell, hc, insertCell, hlt, lookupCell, hb, ih]

/-- One cell is changed and every other reads as before, for any list of cells. -/
theorem lookupCell_updateCell (cs : List Cell) (a b : Nat) (v : Int) :
    lookupCell (updateCell cs a v) b = if b = a then v else lookupCell cs b := by
  by_cases hv : v = Memory.unlisted
  · simp [updateCell, hv, lookupCell_removeCell]
  · simp [updateCell, hv, lookupCell_insertCell_removeCell]

/-! ## The one read and the one write -/

theorem Memory.read?_of_inRange {m : Memory} {a : Int} (h : m.InRange a) :
    m.read? a = some (lookupCell m.cells a.toNat) := by
  simp only [Memory.read?, if_pos h]

theorem Memory.read?_eq_none {m : Memory} {a : Int} : m.read? a = none ↔ ¬ m.InRange a := by
  simp only [Memory.read?]
  split <;> simp_all

/-- A cell that reads is in range. -/
theorem Memory.inRange_of_read? {m : Memory} {a v : Int} (h : m.read? a = some v) : m.InRange a := by
  by_contra hn
  rw [Memory.read?_eq_none.2 hn] at h
  cases h

/-- A write answers exactly for a valid address. -/
theorem Memory.write?_of_inRange {m : Memory} {a : Int} (v : Int) (h : m.InRange a) :
    m.write? a v = some { m with cells := updateCell m.cells a.toNat v } := by
  simp only [Memory.write?, if_pos h]

theorem Memory.write?_eq_none {m : Memory} {a v : Int} : m.write? a v = none ↔ ¬ m.InRange a := by
  simp only [Memory.write?]
  split <;> simp_all

theorem Memory.inRange_of_write? {m m' : Memory} {a v : Int} (h : m.write? a v = some m') : m.InRange a := by
  by_contra hn
  rw [Memory.write?_eq_none.2 hn] at h
  cases h

/-- The length of memory never changes (10_state.md R13). -/
theorem Memory.size_write? {m m' : Memory} {a v : Int} (h : m.write? a v = some m') : m'.size = m.size := by
  rw [Memory.write?_of_inRange v (Memory.inRange_of_write? h)] at h
  cases h
  rfl

/-- Read after write, for every address (20_memory.md R24). -/
theorem Memory.read?_write? {m m' : Memory} {a v : Int} (h : m.write? a v = some m') (b : Int) :
    m'.read? b = if b = a then some v else m.read? b := by
  have ha := Memory.inRange_of_write? h
  rw [Memory.write?_of_inRange v ha] at h
  cases h
  by_cases hb : m.InRange b
  · have hb' : Memory.InRange { m with cells := updateCell m.cells a.toNat v } b := hb
    rw [Memory.read?_of_inRange hb', Memory.read?_of_inRange hb, lookupCell_updateCell]
    have hiff : b.toNat = a.toNat ↔ b = a := by
      obtain ⟨h1, -⟩ := ha
      obtain ⟨h2, -⟩ := hb
      omega
    by_cases hab : b = a <;> simp [hiff, hab]
  · have hb' : ¬ Memory.InRange { m with cells := updateCell m.cells a.toNat v } b := hb
    rw [Memory.read?_eq_none.2 hb', Memory.read?_eq_none.2 hb, if_neg]
    rintro rfl
    exact hb ha

/-! ## The canonical form -/

theorem cellsCanonical_cons {c : Cell} {cs : List Cell} {lo hi : Nat} :
    cellsCanonical (c :: cs) lo hi = true ↔
      lo ≤ c.1 ∧ c.1 < hi ∧ c.2 ≠ Memory.unlisted ∧ cellsCanonical cs (c.1 + 1) hi = true := by
  simp [cellsCanonical, and_assoc]

theorem cellsCanonical_mono {cs : List Cell} {lo lo' hi hi' : Nat} (hlo : lo' ≤ lo) (hhi : hi ≤ hi')
    (h : cellsCanonical cs lo hi = true) : cellsCanonical cs lo' hi' = true := by
  induction cs generalizing lo lo' with
  | nil => rfl
  | cons c cs ih =>
    rw [cellsCanonical_cons] at h ⊢
    exact ⟨by omega, by omega, h.2.2.1, ih (le_refl _) h.2.2.2⟩

theorem cellsCanonical_removeCell {cs : List Cell} {lo hi : Nat} (a : Nat) (h : cellsCanonical cs lo hi = true) :
    cellsCanonical (removeCell cs a) lo hi = true := by
  induction cs generalizing lo with
  | nil => rfl
  | cons c cs ih =>
    rw [cellsCanonical_cons] at h
    by_cases hc : c.1 = a
    · simp only [removeCell, if_pos hc]
      exact cellsCanonical_mono (by omega) (le_refl _) (ih h.2.2.2)
    · simp only [removeCell, if_neg hc, cellsCanonical_cons]
      exact ⟨h.1, h.2.1, h.2.2.1, ih h.2.2.2⟩

theorem cellsCanonical_insertCell_removeCell {cs : List Cell} {lo hi a : Nat} {v : Int} (hv : v ≠ Memory.unlisted)
    (hlo : lo ≤ a) (hhi : a < hi) (h : cellsCanonical cs lo hi = true) :
    cellsCanonical (insertCell a v (removeCell cs a)) lo hi = true := by
  induction cs generalizing lo with
  | nil => simp [removeCell, insertCell, cellsCanonical, hlo, hhi, hv]
  | cons c cs ih =>
    rw [cellsCanonical_cons] at h
    by_cases hc : c.1 = a
    · simp only [removeCell, if_pos hc]
      exact ih hlo (cellsCanonical_mono (by omega) (le_refl _) h.2.2.2)
    · by_cases hlt : a < c.1
      · simp only [removeCell, if_neg hc, insertCell, if_pos hlt, cellsCanonical_cons]
        exact ⟨hlo, hhi, hv, by omega, h.2.1, h.2.2.1, cellsCanonical_removeCell a h.2.2.2⟩
      · simp only [removeCell, if_neg hc, insertCell, if_neg hlt, cellsCanonical_cons]
        exact ⟨h.1, h.2.1, h.2.2.1, ih (by omega) h.2.2.2⟩

theorem cellsCanonical_updateCell {cs : List Cell} {lo hi a : Nat} (v : Int) (hlo : lo ≤ a) (hhi : a < hi)
    (h : cellsCanonical cs lo hi = true) : cellsCanonical (updateCell cs a v) lo hi = true := by
  by_cases hv : v = Memory.unlisted
  · simpa [updateCell, hv] using cellsCanonical_removeCell a h
  · simpa [updateCell, hv] using cellsCanonical_insertCell_removeCell hv hlo hhi h

/-- A write keeps the canonical form. -/
theorem Memory.wf_write? {m m' : Memory} {a v : Int} (hwf : m.wf = true) (h : m.write? a v = some m') :
    m'.wf = true := by
  have ha := Memory.inRange_of_write? h
  rw [Memory.write?_of_inRange v ha] at h
  cases h
  have hlt : a.toNat < m.size := by
    obtain ⟨h1, h2⟩ := ha
    omega
  exact cellsCanonical_updateCell v (Nat.zero_le _) hlt hwf

theorem cellsCanonical_cellsFrom (vs : List Int) (a : Nat) :
    cellsCanonical (cellsFrom vs a) a (a + vs.length) = true := by
  induction vs generalizing a with
  | nil => rfl
  | cons v vs ih =>
    have hrest : cellsCanonical (cellsFrom vs (a + 1)) (a + 1) (a + (v :: vs).length) = true :=
      cellsCanonical_mono (le_refl _) (by simp; omega) (ih (a + 1))
    by_cases hv : v = Memory.unlisted
    · simp only [cellsFrom, if_pos hv]
      exact cellsCanonical_mono (by omega) (le_refl _) hrest
    · simp only [cellsFrom, if_neg hv, cellsCanonical_cons]
      exact ⟨le_refl _, by simp, hv, hrest⟩

/-- A loaded memory is in canonical form. -/
theorem Memory.wf_ofList (vs : List Int) : (Memory.ofList vs).wf = true := by
  simpa [Memory.wf, Memory.ofList] using cellsCanonical_cellsFrom vs 0

/-- Growing a memory keeps the canonical form. -/
theorem Memory.wf_growTo {m : Memory} (n : Nat) (h : m.wf = true) : (m.growTo n).wf = true :=
  cellsCanonical_mono (le_refl _) (Nat.le_max_left _ _) h

/-- Storing a list into cells that exist keeps the canonical form. -/
theorem Memory.wf_storeList {m : Memory} {vs : List Int} {a : Nat} (ha : a + vs.length ≤ m.size) (h : m.wf = true) :
    (m.storeList a vs).wf = true := by
  induction vs generalizing m a with
  | nil => exact h
  | cons v vs ih =>
    simp only [List.length_cons] at ha
    refine ih (m := { m with cells := updateCell m.cells a v }) (a := a + 1) ?_ ?_
    · show a + 1 + vs.length ≤ m.size
      omega
    · have hlt : a < m.size := by omega
      exact cellsCanonical_updateCell v (Nat.zero_le _) hlt h

/-- Placing a word keeps the canonical form. -/
theorem Memory.wf_placeWord {s : State} (nbits w : Nat) (h : s.mem.wf = true) : (placeWord s nbits w).mem.wf = true := by
  refine Memory.wf_storeList (m := s.mem.growTo (max (s.ip.toNat + 4) (w + 1))) ?_ (Memory.wf_growTo _ h)
  simp [Memory.growTo]

/-- The memory at reset is in canonical form. -/
theorem Memory.wf_reset : State.reset.mem.wf = true := rfl

theorem lookupCell_cellsFrom (vs : List Int) (a b : Nat) :
    lookupCell (cellsFrom vs a) b = if a ≤ b then (vs[b - a]?).getD Memory.unlisted else Memory.unlisted := by
  induction vs generalizing a with
  | nil => simp [cellsFrom, lookupCell]
  | cons v vs ih =>
    rcases Nat.lt_trichotomy a b with hlt | rfl | hgt
    · have hsub : b - a = (b - (a + 1)) + 1 := by omega
      by_cases hv : v = Memory.unlisted
      · simp only [cellsFrom, if_pos hv, ih, if_pos (show a + 1 ≤ b by omega), if_pos hlt.le, hsub, List.getElem?_cons_succ]
      · simp only [cellsFrom, if_neg hv, lookupCell, if_neg (show ¬ a = b by omega), ih, if_pos (show a + 1 ≤ b by omega),
          if_pos hlt.le, hsub, List.getElem?_cons_succ]
    · by_cases hv : v = Memory.unlisted
      · simp only [cellsFrom, if_pos hv, ih, if_neg (show ¬ a + 1 ≤ a by omega), le_refl, if_true, Nat.sub_self]
        simp [hv]
      · simp [cellsFrom, hv, lookupCell]
    · by_cases hv : v = Memory.unlisted
      · simp only [cellsFrom, if_pos hv, ih, if_neg (show ¬ a + 1 ≤ b by omega), if_neg (show ¬ a ≤ b by omega)]
      · simp only [cellsFrom, if_neg hv, lookupCell, if_neg (show ¬ a = b by omega), ih,
          if_neg (show ¬ a + 1 ≤ b by omega), if_neg (show ¬ a ≤ b by omega)]

end Sys2Proof.Machine
end

