-- ==== Sys2Proof/Laws/State.lean ====
section
/-! SUPPORT. One lemma per field per update of State. -/

namespace Sys2Proof.Machine

@[simp] theorem State.setMem_mem (s : State) (m : Memory) : (s.setMem m).mem = m := rfl
@[simp] theorem State.setMem_queue (s : State) (m : Memory) : (s.setMem m).queue = s.queue := rfl
@[simp] theorem State.setMem_ip (s : State) (m : Memory) : (s.setMem m).ip = s.ip := rfl
@[simp] theorem State.setMem_rs (s : State) (m : Memory) : (s.setMem m).rs = s.rs := rfl
@[simp] theorem State.setMem_out (s : State) (m : Memory) : (s.setMem m).out = s.out := rfl

@[simp] theorem State.setQueue_mem (s : State) (q : List Int) : (s.setQueue q).mem = s.mem := rfl
@[simp] theorem State.setQueue_queue (s : State) (q : List Int) : (s.setQueue q).queue = q := rfl
@[simp] theorem State.setQueue_ip (s : State) (q : List Int) : (s.setQueue q).ip = s.ip := rfl
@[simp] theorem State.setQueue_rs (s : State) (q : List Int) : (s.setQueue q).rs = s.rs := rfl
@[simp] theorem State.setQueue_out (s : State) (q : List Int) : (s.setQueue q).out = s.out := rfl

@[simp] theorem State.setIp_mem (s : State) (v : Int) : (s.setIp v).mem = s.mem := rfl
@[simp] theorem State.setIp_queue (s : State) (v : Int) : (s.setIp v).queue = s.queue := rfl
@[simp] theorem State.setIp_ip (s : State) (v : Int) : (s.setIp v).ip = v := rfl
@[simp] theorem State.setIp_rs (s : State) (v : Int) : (s.setIp v).rs = s.rs := rfl
@[simp] theorem State.setIp_out (s : State) (v : Int) : (s.setIp v).out = s.out := rfl

@[simp] theorem State.setRs_mem (s : State) (r : RunState) : (s.setRs r).mem = s.mem := rfl
@[simp] theorem State.setRs_queue (s : State) (r : RunState) : (s.setRs r).queue = s.queue := rfl
@[simp] theorem State.setRs_ip (s : State) (r : RunState) : (s.setRs r).ip = s.ip := rfl
@[simp] theorem State.setRs_rs (s : State) (r : RunState) : (s.setRs r).rs = r := rfl
@[simp] theorem State.setRs_out (s : State) (r : RunState) : (s.setRs r).out = s.out := rfl

@[simp] theorem State.setOut_mem (s : State) (o : List Int) : (s.setOut o).mem = s.mem := rfl
@[simp] theorem State.setOut_queue (s : State) (o : List Int) : (s.setOut o).queue = s.queue := rfl
@[simp] theorem State.setOut_ip (s : State) (o : List Int) : (s.setOut o).ip = s.ip := rfl
@[simp] theorem State.setOut_rs (s : State) (o : List Int) : (s.setOut o).rs = s.rs := rfl
@[simp] theorem State.setOut_out (s : State) (o : List Int) : (s.setOut o).out = o := rfl

@[simp] theorem State.emit_mem (s : State) (v : Int) : (s.emit v).mem = s.mem := rfl
@[simp] theorem State.emit_queue (s : State) (v : Int) : (s.emit v).queue = s.queue := rfl
@[simp] theorem State.emit_ip (s : State) (v : Int) : (s.emit v).ip = s.ip := rfl
@[simp] theorem State.emit_rs (s : State) (v : Int) : (s.emit v).rs = s.rs := rfl
@[simp] theorem State.emit_out (s : State) (v : Int) : (s.emit v).out = s.out ++ [v] := rfl

@[simp] theorem advance_mem (s : State) (op : Opcode) : (advance s op).mem = s.mem := rfl
@[simp] theorem advance_queue (s : State) (op : Opcode) : (advance s op).queue = s.queue := rfl
@[simp] theorem advance_ip (s : State) (op : Opcode) : (advance s op).ip = s.ip + op.length := rfl
@[simp] theorem advance_rs (s : State) (op : Opcode) : (advance s op).rs = s.rs := rfl
@[simp] theorem advance_out (s : State) (op : Opcode) : (advance s op).out = s.out := rfl

@[simp] theorem appendInput_mem (s : State) (xs : List Int) : (appendInput s xs).mem = s.mem := rfl
@[simp] theorem appendInput_queue (s : State) (xs : List Int) : (appendInput s xs).queue = s.queue ++ xs := rfl
@[simp] theorem appendInput_ip (s : State) (xs : List Int) : (appendInput s xs).ip = s.ip := rfl
@[simp] theorem appendInput_rs (s : State) (xs : List Int) : (appendInput s xs).rs = s.rs := rfl
@[simp] theorem appendInput_out (s : State) (xs : List Int) : (appendInput s xs).out = s.out := rfl

@[simp] theorem invoke_mem (m : Memory) (q : List Int) (r : Int) : (invoke m q r).mem = m := rfl
@[simp] theorem invoke_queue (m : Memory) (q : List Int) (r : Int) : (invoke m q r).queue = q := rfl
@[simp] theorem invoke_ip (m : Memory) (q : List Int) (r : Int) : (invoke m q r).ip = r := rfl
@[simp] theorem invoke_rs (m : Memory) (q : List Int) (r : Int) : (invoke m q r).rs = .running := rfl
@[simp] theorem invoke_out (m : Memory) (q : List Int) (r : Int) : (invoke m q r).out = [] := rfl

@[simp] theorem resume_mem (s : State) (xs : List Int) : (resume s xs).mem = s.mem := rfl
@[simp] theorem resume_queue (s : State) (xs : List Int) : (resume s xs).queue = s.queue ++ xs := rfl
@[simp] theorem resume_ip (s : State) (xs : List Int) : (resume s xs).ip = s.ip := rfl
@[simp] theorem resume_rs (s : State) (xs : List Int) : (resume s xs).rs = .running := rfl
@[simp] theorem resume_out (s : State) (xs : List Int) : (resume s xs).out = [] := rfl

@[simp] theorem launch_mem (program inputs : List Int) : (launch program inputs).mem = Memory.ofList program := rfl
@[simp] theorem launch_queue (program inputs : List Int) : (launch program inputs).queue = inputs := rfl
@[simp] theorem launch_ip (program inputs : List Int) : (launch program inputs).ip = 0 := rfl
@[simp] theorem launch_rs (program inputs : List Int) : (launch program inputs).rs = .running := rfl
@[simp] theorem launch_out (program inputs : List Int) : (launch program inputs).out = [] := rfl

end Sys2Proof.Machine
end

