-- ==== Sys2Proof/Laws/Operands.lean ====
section
/-! SUPPORT. For each shared operation, everything it can answer: when it is `ok` and with what, when it is an error and which. -/

namespace Sys2Proof.Machine

/-! ## Sequencing -/

@[simp] theorem ok_then {ε α β : Type} (a : α) (k : α → Except ε β) : (Except.ok a >>= k) = k a := rfl

@[simp] theorem error_then {ε α β : Type} (e : ε) (k : α → Except ε β) : ((Except.error e : Except ε α) >>= k) = .error e := rfl

theorem then_eq_ok {ε α β : Type} {x : Except ε α} {k : α → Except ε β} {b : β} :
    (x >>= k) = .ok b ↔ ∃ a, x = .ok a ∧ k a = .ok b := by
  cases x <;> simp

theorem then_eq_error {ε α β : Type} {x : Except ε α} {k : α → Except ε β} {e : ε} :
    (x >>= k) = .error e ↔ x = .error e ∨ ∃ a, x = .ok a ∧ k a = .error e := by
  cases x <;> simp

theorem finish_eq_next {r : Except Fault State} {t : State} : finish r = .next t ↔ r = .ok t := by
  cases r <;> simp [finish, raise]

theorem finish_eq_fault {r : Except Fault State} {f : Fault} : finish r = .fault f ↔ r = .error f := by
  cases r <;> simp [finish, raise]

theorem finish_ne_refused (r : Except Fault State) (why : Refusal) : finish r ≠ .refused why := by
  cases r <;> simp [finish, raise]

/-! ## Memory access -/

theorem memRead_eq_ok {s : State} {a v : Int} {acc : Access} : memRead s a acc = .ok v ↔ s.mem.read? a = some v := by
  unfold memRead
  split <;> simp_all

theorem memRead_eq_error {s : State} {a : Int} {acc : Access} {f : Fault} :
    memRead s a acc = .error f ↔ s.mem.read? a = none ∧ f = .memoryAccessFault s.ip a acc := by
  unfold memRead
  cases s.mem.read? a <;> simp [eq_comm]

theorem memWrite_eq_ok {s t : State} {a v : Int} {acc : Access} :
    memWrite s a v acc = .ok t ↔ ∃ m, s.mem.write? a v = some m ∧ t = s.setMem m := by
  unfold memWrite
  cases s.mem.write? a v <;> simp [eq_comm]

theorem memWrite_eq_error {s : State} {a v : Int} {acc : Access} {f : Fault} :
    memWrite s a v acc = .error f ↔ ¬ s.mem.InRange a ∧ f = .memoryAccessFault s.ip a acc := by
  rw [← Memory.write?_eq_none (v := v)]
  unfold memWrite
  cases s.mem.write? a v <;> simp [eq_comm]

theorem checkRange_eq_ok {s : State} {a b : Int} {acc : Access} : checkRange s a acc = .ok b ↔ s.mem.InRange a ∧ b = a := by
  unfold checkRange
  by_cases h : s.mem.InRange a
  · rw [if_pos h]
    exact ⟨fun e => ⟨h, (Except.ok.inj e).symm⟩, fun e => congrArg _ e.2.symm⟩
  · rw [if_neg h]
    exact ⟨nofun, fun e => absurd e.1 h⟩

theorem checkRange_eq_error {s : State} {a : Int} {acc : Access} {f : Fault} :
    checkRange s a acc = .error f ↔ ¬ s.mem.InRange a ∧ f = .memoryAccessFault s.ip a acc := by
  unfold checkRange
  by_cases h : s.mem.InRange a
  · rw [if_pos h]
    exact ⟨nofun, fun e => absurd h e.1⟩
  · rw [if_neg h]
    exact ⟨fun e => ⟨h, (Except.error.inj e).symm⟩, fun e => congrArg _ e.2.symm⟩

/-- A write to a valid address changes that cell and nothing else (20_memory.md R24). -/
theorem MemoryChangedAt.of_write? {m m' : Memory} {a v : Int} (h : m.write? a v = some m') : MemoryChangedAt m m' a v :=
  ⟨Memory.size_write? h, by simp [Memory.read?_write? h], fun b hb => by simp [Memory.read?_write? h, hb]⟩

/-- A write to a target that was checked answers. -/
theorem TargetIs.write? {s : State} {k : Nat} {t : Int} (h : TargetIs s k t) (v : Int) :
    ∃ m, s.mem.write? t v = some m :=
  ⟨_, Memory.write?_of_inRange v h.2⟩

/-! ## Operands -/

theorem readOperand_eq_ok {s : State} {k : Nat} {m : Mode} {v : Int} :
    readOperand s k m = .ok v ↔ OperandIs s k m v := by
  cases m <;> simp [readOperand, OperandIs, then_eq_ok, memRead_eq_ok]

theorem readOperand_eq_error {s : State} {k : Nat} {m : Mode} {f : Fault} :
    readOperand s k m = .error f ↔
      (s.mem.read? (s.ip + k) = none ∧ f = .memoryAccessFault s.ip (s.ip + k) (.parameter k)) ∨
      (m = .position ∧ ∃ p, s.mem.read? (s.ip + k) = some p ∧ s.mem.read? p = none ∧
        f = .memoryAccessFault s.ip p (.operand k)) := by
  cases m <;> simp [readOperand, then_eq_error, memRead_eq_ok, memRead_eq_error]

theorem writeTarget_eq_ok {s : State} {k : Nat} {t : Int} : writeTarget s k = .ok t ↔ TargetIs s k t := by
  simp only [writeTarget, TargetIs, then_eq_ok, memRead_eq_ok, checkRange_eq_ok]
  constructor
  · rintro ⟨a, h1, h2, rfl⟩
    exact ⟨h1, h2⟩
  · rintro ⟨h1, h2⟩
    exact ⟨t, h1, h2, rfl⟩

theorem writeTarget_eq_error {s : State} {k : Nat} {f : Fault} :
    writeTarget s k = .error f ↔
      (s.mem.read? (s.ip + k) = none ∧ f = .memoryAccessFault s.ip (s.ip + k) (.parameter k)) ∨
      (∃ t, s.mem.read? (s.ip + k) = some t ∧ ¬ s.mem.InRange t ∧ f = .memoryAccessFault s.ip t .target) := by
  simp [writeTarget, then_eq_error, memRead_eq_ok, memRead_eq_error, checkRange_eq_error]

/-- An operand is unique. -/
theorem OperandIs.unique {s : State} {k : Nat} {m : Mode} {v w : Int} (hv : OperandIs s k m v) (hw : OperandIs s k m w) :
    v = w := by
  rw [← readOperand_eq_ok] at hv hw
  rw [hv] at hw
  exact Except.ok.inj hw

/-- A write target is unique. -/
theorem TargetIs.unique {s : State} {k : Nat} {t u : Int} (ht : TargetIs s k t) (hu : TargetIs s k u) : t = u :=
  Option.some.inj (ht.1.symm.trans hu.1)

/-! ## The phases of each shape of instruction -/

/-- All that an instruction with two operands and a target can do without a fault. -/
theorem computeAndStore_eq_ok {op : Opcode} {f : Int → Int → Int} {m1 m2 : Mode} {s u : State} :
    computeAndStore op f m1 m2 s = .ok u ↔
      ∃ a b t m, OperandIs s 1 m1 a ∧ OperandIs s 2 m2 b ∧ TargetIs s 3 t ∧ s.mem.write? t (f a b) = some m ∧
        u = advance (s.setMem m) op := by
  simp only [computeAndStore, then_eq_ok, readOperand_eq_ok, writeTarget_eq_ok, memWrite_eq_ok, Except.ok.injEq]
  constructor
  · rintro ⟨a, ha, b, hb, t, ht, _, ⟨m, hm, rfl⟩, rfl⟩
    exact ⟨a, b, t, m, ha, hb, ht, hm, rfl⟩
  · rintro ⟨a, b, t, m, ha, hb, ht, hm, rfl⟩
    exact ⟨a, ha, b, hb, t, ht, _, ⟨m, hm, rfl⟩, rfl⟩

/-- All its faults, in the order of their checks. -/
theorem computeAndStore_eq_error {op : Opcode} {f : Int → Int → Int} {m1 m2 : Mode} {s : State} {e : Fault} :
    computeAndStore op f m1 m2 s = .error e ↔
      readOperand s 1 m1 = .error e ∨
      (∃ a, OperandIs s 1 m1 a ∧ (readOperand s 2 m2 = .error e ∨
        ∃ b, OperandIs s 2 m2 b ∧ writeTarget s 3 = .error e)) := by
  simp only [computeAndStore, then_eq_error, readOperand_eq_ok, writeTarget_eq_ok, memWrite_eq_error, reduceCtorEq, and_false,
    exists_false, or_false]
  constructor
  · rintro (h | ⟨a, ha, h | ⟨b, hb, h | ⟨t, ht, hn, -⟩⟩⟩)
    · exact .inl h
    · exact .inr ⟨a, ha, .inl h⟩
    · exact .inr ⟨a, ha, .inr ⟨b, hb, h⟩⟩
    · exact absurd ht.2 hn
  · rintro (h | ⟨a, ha, h | ⟨b, hb, h⟩⟩)
    · exact .inl h
    · exact .inr ⟨a, ha, .inl h⟩
    · exact .inr ⟨a, ha, .inr ⟨b, hb, .inl h⟩⟩

/-- All that INPUT can do without a fault: suspend on an empty queue, or give the front to the target. -/
theorem popAndStore_eq_ok {s u : State} :
    popAndStore s = .ok u ↔
      ∃ t, TargetIs s 1 t ∧
        ((s.queue = [] ∧ u = s.setRs .awaitingInput) ∨
          ∃ x q m, s.queue = x :: q ∧ s.mem.write? t x = some m ∧ u = advance ((s.setQueue q).setMem m) .input) := by
  simp only [popAndStore, then_eq_ok, writeTarget_eq_ok]
  refine exists_congr fun t => and_congr_right fun _ => ?_
  rcases hq : s.queue with _ | ⟨x, q⟩
  · simp [eq_comm]
  · simp only [then_eq_ok, memWrite_eq_ok, Except.ok.injEq, reduceCtorEq, false_and, false_or, List.cons.injEq]
    constructor
    · rintro ⟨_, ⟨m, hm, rfl⟩, rfl⟩
      exact ⟨x, q, m, ⟨rfl, rfl⟩, hm, rfl⟩
    · rintro ⟨_, _, m, ⟨rfl, rfl⟩, hm, rfl⟩
      exact ⟨_, ⟨m, hm, rfl⟩, rfl⟩

/-- All faults of INPUT: those of its write target. -/
theorem popAndStore_eq_error {s : State} {e : Fault} : popAndStore s = .error e ↔ writeTarget s 1 = .error e := by
  simp only [popAndStore, then_eq_error, writeTarget_eq_ok, or_iff_left_iff_imp]
  rintro ⟨t, ht, h⟩
  rcases hq : s.queue with _ | ⟨x, q⟩
  · simp [hq] at h
  · simp only [hq, then_eq_error, memWrite_eq_error, reduceCtorEq, and_false, exists_false, or_false] at h
    exact absurd ht.2 h.1

/-- All that OUTPUT can do without a fault. -/
theorem readAndEmit_eq_ok {m1 : Mode} {s u : State} :
    readAndEmit m1 s = .ok u ↔ ∃ a, OperandIs s 1 m1 a ∧ u = advance (s.emit a) .output := by
  simp only [readAndEmit, then_eq_ok, readOperand_eq_ok, Except.ok.injEq]
  simp only [eq_comm]

/-- All faults of OUTPUT: those of its operand. -/
theorem readAndEmit_eq_error {m1 : Mode} {s : State} {e : Fault} :
    readAndEmit m1 s = .error e ↔ readOperand s 1 m1 = .error e := by
  simp [readAndEmit, then_eq_error]

theorem jumpOrAdvance_eq_ok {s u : State} {op : Opcode} {taken : Bool} {b : Int} :
    jumpOrAdvance s op taken b = .ok u ↔
      (taken = true ∧ s.mem.InRange b ∧ u = s.setIp b) ∨ (taken = false ∧ u = advance s op) := by
  cases taken
  · simp [jumpOrAdvance, eq_comm]
  · simp only [jumpOrAdvance, if_true, then_eq_ok, checkRange_eq_ok, Except.ok.injEq, true_and, reduceCtorEq, false_and, or_false]
    constructor
    · rintro ⟨_, ⟨h, rfl⟩, rfl⟩
      exact ⟨h, rfl⟩
    · rintro ⟨h, rfl⟩
      exact ⟨_, ⟨h, rfl⟩, rfl⟩

theorem jumpOrAdvance_eq_error {s : State} {op : Opcode} {taken : Bool} {b : Int} {e : Fault} :
    jumpOrAdvance s op taken b = .error e ↔
      taken = true ∧ ¬ s.mem.InRange b ∧ e = .memoryAccessFault s.ip b .jump := by
  cases taken <;> simp [jumpOrAdvance, then_eq_error, checkRange_eq_error]

/-- All that a jump can do without a fault: only `ip` changes. -/
theorem testAndJump_eq_ok {op : Opcode} {takes : Int → Bool} {m1 m2 : Mode} {s u : State} :
    testAndJump op takes m1 m2 s = .ok u ↔
      ∃ a b, OperandIs s 1 m1 a ∧ OperandIs s 2 m2 b ∧
        ((takes a = true ∧ s.mem.InRange b ∧ u = s.setIp b) ∨ (takes a = false ∧ u = advance s op)) := by
  simp only [testAndJump, then_eq_ok, readOperand_eq_ok, jumpOrAdvance_eq_ok]
  constructor
  · rintro ⟨a, ha, b, hb, h⟩
    exact ⟨a, b, ha, hb, h⟩
  · rintro ⟨a, b, ha, hb, h⟩
    exact ⟨a, ha, b, hb, h⟩

/-- All faults of a jump, in the order of their checks. -/
theorem testAndJump_eq_error {op : Opcode} {takes : Int → Bool} {m1 m2 : Mode} {s : State} {e : Fault} :
    testAndJump op takes m1 m2 s = .error e ↔
      readOperand s 1 m1 = .error e ∨
      (∃ a, OperandIs s 1 m1 a ∧ (readOperand s 2 m2 = .error e ∨
        ∃ b, OperandIs s 2 m2 b ∧ takes a = true ∧ ¬ s.mem.InRange b ∧ e = .memoryAccessFault s.ip b .jump)) := by
  simp only [testAndJump, then_eq_error, readOperand_eq_ok, jumpOrAdvance_eq_error]

/-! ## Fetch -/

theorem fetchInstr_eq_ok {s : State} {i : Instr} :
    fetchInstr s = .ok i ↔ ∃ w, s.mem.read? s.ip = some w ∧ decode w = .ok i := by
  simp only [fetchInstr, then_eq_ok, memRead_eq_ok]
  refine exists_congr fun w => and_congr_right fun _ => ?_
  cases decode w <;> simp

theorem fetchInstr_eq_error {s : State} {f : Fault} :
    fetchInstr s = .error f ↔
      (s.mem.read? s.ip = none ∧ f = .memoryAccessFault s.ip s.ip .fetch) ∨
      (∃ w e, s.mem.read? s.ip = some w ∧ decode w = .error e ∧ f = DecodeFault.at e s.ip) := by
  simp only [fetchInstr, then_eq_error, memRead_eq_ok, memRead_eq_error]
  refine or_congr_right (exists_congr fun w => ?_)
  cases decode w <;> simp [eq_comm]

end Sys2Proof.Machine
end

