-- ==== Sys2Proof/Laws/PerInstr.lean ====
section
/-! SUPPORT. Statements for all instructions, one lemma per constructor of Instr. -/

/-- The canonical word of an instruction is a canonical valid word, its opcode field is the opcode's value, and its mode list has
one mode per read parameter (30_encoding.md R31, R35, R42). -/
def Sys2Proof.Laws.EncodedWord.Statement (i : Sys2Proof.Instr) : Prop :=
  Sys2Proof.wordCanonical (Sys2Proof.encode i) = true ∧ Sys2Proof.wordWellFormed (Sys2Proof.encode i) = true ∧
  Sys2Proof.encode i % 100 = i.opcode.value ∧ i.wellFormed = true

namespace Sys2Proof.Laws.EncodedWord

theorem add (m1 m2 : Mode) : Statement (.add m1 m2) := by
  cases m1 <;> cases m2 <;> exact ⟨by decide, by decide, by decide, rfl⟩

theorem mult (m1 m2 : Mode) : Statement (.mult m1 m2) := by
  cases m1 <;> cases m2 <;> exact ⟨by decide, by decide, by decide, rfl⟩

theorem input : Statement .input :=
  ⟨by decide, by decide, by decide, rfl⟩

theorem output (m1 : Mode) : Statement (.output m1) := by
  cases m1 <;> exact ⟨by decide, by decide, by decide, rfl⟩

theorem jumpIfTrue (m1 m2 : Mode) : Statement (.jumpIfTrue m1 m2) := by
  cases m1 <;> cases m2 <;> exact ⟨by decide, by decide, by decide, rfl⟩

theorem jumpIfFalse (m1 m2 : Mode) : Statement (.jumpIfFalse m1 m2) := by
  cases m1 <;> cases m2 <;> exact ⟨by decide, by decide, by decide, rfl⟩

theorem lessThan (m1 m2 : Mode) : Statement (.lessThan m1 m2) := by
  cases m1 <;> cases m2 <;> exact ⟨by decide, by decide, by decide, rfl⟩

theorem equals (m1 m2 : Mode) : Statement (.equals m1 m2) := by
  cases m1 <;> cases m2 <;> exact ⟨by decide, by decide, by decide, rfl⟩

theorem halt : Statement .halt :=
  ⟨by decide, by decide, by decide, rfl⟩

end Sys2Proof.Laws.EncodedWord
end

