-- ==== Sys2Proof/Laws/Step.lean ====
section
/-! SUPPORT. What each meaning can answer, and what a step can do: the inversion that every invariant is derived from. -/

namespace Sys2Proof.Machine

/-- What an instruction does to a state when it completes or suspends (40_execution_cycle.md R56): at most one write, or one pop
with its write, or one emit, with the `ip` update; a suspension or a halt changes the run-state alone. -/
inductive Effect (s : State) : State → Prop where
  | stored {t v : Int} {m : Memory} (op : Opcode) (hlen : op.length = 4) (hcell : s.mem.read? (s.ip + 3) = some t)
      (hm : s.mem.write? t v = some m) : Effect s (advance (s.setMem m) op)
  | popped {t x : Int} {q : List Int} {m : Memory} (hcell : s.mem.read? (s.ip + 1) = some t) (hq : s.queue = x :: q)
      (hm : s.mem.write? t x = some m) : Effect s (advance ((s.setQueue q).setMem m) .input)
  | suspended (hq : s.queue = []) : Effect s (s.setRs .awaitingInput)
  | emitted {p : Int} (v : Int) (hcell : s.mem.read? (s.ip + 1) = some p) : Effect s (advance (s.emit v) .output)
  | jumped {b : Int} (hb : s.mem.InRange b) : Effect s (s.setIp b)
  | notTaken {p : Int} (op : Opcode) (hlen : op.length = 3) (hcell : s.mem.read? (s.ip + 2) = some p) : Effect s (advance s op)
  | halted : Effect s (s.setRs .halted)

theorem OperandIs.cell {s : State} {k : Nat} {m : Mode} {v : Int} (h : OperandIs s k m v) :
    ∃ p, s.mem.read? (s.ip + k) = some p := by
  cases m
  · exact ⟨_, h.choose_spec.1⟩
  · exact ⟨v, h⟩

theorem Effect.of_computeAndStore {op : Opcode} {f : Int → Int → Int} {m1 m2 : Mode} {s u : State} (hlen : op.length = 4)
    (h : computeAndStore op f m1 m2 s = .ok u) : Effect s u := by
  obtain ⟨a, b, t, m, -, -, ht, hm, rfl⟩ := computeAndStore_eq_ok.1 h
  exact .stored op hlen ht.1 hm

theorem Effect.of_testAndJump {op : Opcode} {takes : Int → Bool} {m1 m2 : Mode} {s u : State} (hlen : op.length = 3)
    (h : testAndJump op takes m1 m2 s = .ok u) : Effect s u := by
  obtain ⟨a, b, -, hb, ⟨-, hr, rfl⟩ | ⟨-, rfl⟩⟩ := testAndJump_eq_ok.1 h
  · exact .jumped hr
  · obtain ⟨p, hp⟩ := hb.cell
    exact .notTaken op hlen hp

/-- Everything an instruction can do when it answers a next state. -/
theorem Effect.of_exec {i : Instr} {s u : State} (h : exec i s = .next u) : Effect s u := by
  cases i with
  | add | mult | lessThan | equals => exact .of_computeAndStore rfl (finish_eq_next.1 h)
  | jumpIfTrue | jumpIfFalse => exact .of_testAndJump rfl (finish_eq_next.1 h)
  | input =>
    obtain ⟨t, ht, ⟨hq, rfl⟩ | ⟨x, q, m, hq, hm, rfl⟩⟩ := popAndStore_eq_ok.1 (finish_eq_next.1 h)
    · exact .suspended hq
    · exact .popped ht.1 hq hm
  | output =>
    obtain ⟨a, ha, rfl⟩ := readAndEmit_eq_ok.1 (finish_eq_next.1 h)
    obtain ⟨p, hp⟩ := ha.cell
    exact .emitted a hp
  | halt =>
    cases h
    exact .halted

/-- Every fault that an instruction raises after its decoding is a MemoryAccessFault at its own `ip`. -/
def IsAccessFault (s : State) (f : Fault) : Prop :=
  ∃ a acc, f = .memoryAccessFault s.ip a acc

theorem IsAccessFault.of_readOperand {s : State} {k : Nat} {m : Mode} {f : Fault} (h : readOperand s k m = .error f) :
    IsAccessFault s f := by
  obtain ⟨-, rfl⟩ | ⟨-, p, -, -, rfl⟩ := readOperand_eq_error.1 h
  exacts [⟨_, _, rfl⟩, ⟨_, _, rfl⟩]

theorem IsAccessFault.of_writeTarget {s : State} {k : Nat} {f : Fault} (h : writeTarget s k = .error f) :
    IsAccessFault s f := by
  obtain ⟨-, rfl⟩ | ⟨t, -, -, rfl⟩ := writeTarget_eq_error.1 h
  exacts [⟨_, _, rfl⟩, ⟨_, _, rfl⟩]

theorem IsAccessFault.of_computeAndStore {op : Opcode} {g : Int → Int → Int} {m1 m2 : Mode} {s : State} {f : Fault}
    (h : computeAndStore op g m1 m2 s = .error f) : IsAccessFault s f := by
  obtain h | ⟨a, -, h | ⟨b, -, h⟩⟩ := computeAndStore_eq_error.1 h
  exacts [.of_readOperand h, .of_readOperand h, .of_writeTarget h]

theorem IsAccessFault.of_testAndJump {op : Opcode} {takes : Int → Bool} {m1 m2 : Mode} {s : State} {f : Fault}
    (h : testAndJump op takes m1 m2 s = .error f) : IsAccessFault s f := by
  obtain h | ⟨a, -, h | ⟨b, -, -, -, rfl⟩⟩ := testAndJump_eq_error.1 h
  exacts [.of_readOperand h, .of_readOperand h, ⟨_, _, rfl⟩]

theorem IsAccessFault.of_exec {i : Instr} {s : State} {f : Fault} (h : exec i s = .fault f) : IsAccessFault s f := by
  cases i with
  | add | mult | lessThan | equals => exact .of_computeAndStore (finish_eq_fault.1 h)
  | jumpIfTrue | jumpIfFalse => exact .of_testAndJump (finish_eq_fault.1 h)
  | input => exact .of_writeTarget (popAndStore_eq_error.1 (finish_eq_fault.1 h))
  | output => exact .of_readOperand (readAndEmit_eq_error.1 (finish_eq_fault.1 h))
  | halt => cases h

/-- Everything a running step can answer as a next state. -/
theorem step_running_eq_next {s u : State} (hrs : s.rs = .running) :
    step s = .next u ↔ ∃ w i, s.mem.read? s.ip = some w ∧ decode w = .ok i ∧ exec i s = .next u := by
  unfold step
  simp only [hrs]
  cases hf : fetchInstr s with
  | error f =>
    simp only [raise, reduceCtorEq, false_iff]
    rintro ⟨w, i, hw, hi, -⟩
    rw [fetchInstr_eq_ok.2 ⟨w, hw, hi⟩] at hf
    cases hf
  | ok i =>
    obtain ⟨w, hw, hi⟩ := fetchInstr_eq_ok.1 hf
    constructor
    · exact fun h => ⟨w, i, hw, hi, h⟩
    · rintro ⟨w', i', hw', hi', h⟩
      rw [hw] at hw'
      cases hw'
      rw [hi] at hi'
      cases hi'
      exact h

/-- A step outside RUNNING changes nothing. -/
theorem step_not_running {s : State} (hrs : s.rs ≠ .running) : step s = .next s := by
  unfold step
  cases h : s.rs <;> simp_all [idle]

/-- Everything a step can do when it answers a next state: nothing at all outside RUNNING, else one effect. -/
theorem step_next_cases {s u : State} (h : step s = .next u) : (s.rs ≠ .running ∧ u = s) ∨ (s.rs = .running ∧ Effect s u) := by
  by_cases hrs : s.rs = .running
  · obtain ⟨w, i, -, -, hx⟩ := (step_running_eq_next hrs).1 h
    exact .inr ⟨hrs, .of_exec hx⟩
  · rw [step_not_running hrs] at h
    cases h
    exact .inl ⟨hrs, rfl⟩

end Sys2Proof.Machine
end

