-- ==== Sys2Proof/Machine/Assembler.lean ====
section
/-! DEFINITION. The assembly notation of the spec's examples, as abstract syntax (30_encoding.md R44; log 26). It defines nothing
that the integers do not (92_eei_decisions.md D20). -/

namespace Sys2Proof.Machine

/-- An integer, or a label that stands for one. -/
inductive AsmValue where
  | int (v : Int)
  | label (name : String)
  deriving DecidableEq, Repr

/-- A read operand: `[p]` or `#p`. -/
inductive AsmRead where
  | pos (p : AsmValue)
  | imm (p : AsmValue)
  deriving DecidableEq, Repr

/-- A line of the notation: an instruction, the pseudo-instruction JUMP, a directive or a label. -/
inductive AsmLine where
  | add (a b : AsmRead) (t : AsmValue)
  | mult (a b : AsmRead) (t : AsmValue)
  | input (t : AsmValue)
  | output (a : AsmRead)
  | jumpIfTrue (a b : AsmRead)
  | jumpIfFalse (a b : AsmRead)
  | lessThan (a b : AsmRead) (t : AsmValue)
  | equals (a b : AsmRead) (t : AsmValue)
  | halt
  | jump (x : AsmRead)
  | data (v : AsmValue)
  | define (name : String)
  deriving DecidableEq, Repr

/-- The mode of a read operand. -/
def AsmRead.mode : AsmRead → Mode
  | .pos _ => .position
  | .imm _ => .immediate

/-- The parameter value of a read operand. -/
def AsmRead.param : AsmRead → AsmValue
  | .pos p => p
  | .imm p => p

/-- The cells of a line, labels not yet resolved (30_encoding.md R44). -/
def AsmLine.cells : AsmLine → List AsmValue
  | .add a b t => [.int (encode (.add a.mode b.mode)), a.param, b.param, t]
  | .mult a b t => [.int (encode (.mult a.mode b.mode)), a.param, b.param, t]
  | .input t => [.int (encode .input), t]
  | .output a => [.int (encode (.output a.mode)), a.param]
  | .jumpIfTrue a b => [.int (encode (.jumpIfTrue a.mode b.mode)), a.param, b.param]
  | .jumpIfFalse a b => [.int (encode (.jumpIfFalse a.mode b.mode)), a.param, b.param]
  | .lessThan a b t => [.int (encode (.lessThan a.mode b.mode)), a.param, b.param, t]
  | .equals a b t => [.int (encode (.equals a.mode b.mode)), a.param, b.param, t]
  | .halt => [.int (encode .halt)]
  | .jump x => [.int (encode (.jumpIfTrue .immediate x.mode)), .int 1, x.param]
  | .data v => [v]
  | .define _ => []

/-- The address of the cell that a label stands before, counting from `addr`. -/
def labelAddress (name : String) : List AsmLine → Nat → Option Nat
  | [], _ => none
  | .define n :: rest, addr => if n = name then some addr else labelAddress name rest addr
  | line :: rest, addr => labelAddress name rest (addr + line.cells.length)

/-- The integer a value stands for. -/
def AsmValue.resolve (program : List AsmLine) : AsmValue → Option Int
  | .int v => some v
  | .label name => (labelAddress name program 0).map fun (a : Nat) => (a : Int)

/-- The integers of a list of values, or none if a label is not defined. -/
def resolveAll (program : List AsmLine) : List AsmValue → Option (List Int)
  | [] => some []
  | v :: vs =>
    match v.resolve program, resolveAll program vs with
    | some x, some xs => some (x :: xs)
    | _, _ => none

/-- The memory image of a program (30_encoding.md R44). -/
def assemble (program : List AsmLine) : Option (List Int) :=
  resolveAll program (program.flatMap AsmLine.cells)

end Sys2Proof.Machine
end

