-- ==== Sys2Proof/Machine/Loader.lean ====
section
/-! DEFINITION. The host's loader: program text to memory (70_reset_and_hazards.md R106; log 25). -/

namespace Sys2Proof.Machine

/-- The value of a decimal digit. -/
def digitValue (c : Char) : Option Nat :=
  if 48 ≤ c.toNat ∧ c.toNat ≤ 57 then some (c.toNat - 48) else none

/-- The value of decimal digits read after `acc`. -/
def readDigits (acc : Nat) : List Char → Option Nat
  | [] => some acc
  | c :: cs =>
    match digitValue c with
    | some d => readDigits (acc * 10 + d) cs
    | none => none

/-- One or more decimal digits. -/
def readNat : List Char → Option Nat
  | [] => none
  | c :: cs => readDigits 0 (c :: cs)

/-- A base-10 integer, optionally signed: a leading `-` or `+` is accepted (70_reset_and_hazards.md R106). -/
def readInteger : List Char → Option Int
  | '-' :: cs => (readNat cs).map fun n => -(n : Int)
  | '+' :: cs => (readNat cs).map fun n => (n : Int)
  | cs => (readNat cs).map fun n => (n : Int)

/-- The fields between commas. -/
def splitAtCommas : List Char → List (List Char)
  | [] => [[]]
  | c :: cs =>
    match splitAtCommas cs with
    | [] => [[c]]
    | f :: fs => if c = ',' then [] :: f :: fs else (c :: f) :: fs

/-- The line without one trailing newline. -/
def dropNewline : List Char → List Char
  | [] => []
  | ['\n'] => []
  | c :: cs => c :: dropNewline cs

/-- Every field as an integer, or none if one is not. -/
def readAll : List (List Char) → Option (List Int)
  | [] => some []
  | f :: fs =>
    match readInteger f, readAll fs with
    | some v, some vs => some (v :: vs)
    | _, _ => none

/-- The integers of a program text. `none`: the text is malformed, a failure of the host before launch and no fault of the CORE
(70_reset_and_hazards.md R106). -/
def readProgram (text : List Char) : Option (List Int) :=
  match dropNewline text with
  | [] => some []
  | line => readAll (splitAtCommas line)

/-- A fresh launch from program text (70_reset_and_hazards.md R105). -/
def launchText (text : List Char) (inputs : List Int) : Option State :=
  (readProgram text).map fun program => launch program inputs

end Sys2Proof.Machine
end

