-- ==== Sys2Proof/Tests/Slice0.lean ====
section
/-! SUPPORT. Small tests, their expected results taken from 95_test_vectors.md (its number in the comment) or by hand from a rule;
the smoke tests of WellFormed; and for each statement with hypotheses a witness that meets them all. -/

open Sys2Proof Sys2Proof.Machine

namespace Sys2Proof.Tests

/-- The next state of an outcome. -/
def nextOf : Host.Outcome State Fault Refusal → Option State
  | .next t => some t
  | _ => none

/-- The fault of an outcome. -/
def faultOf : Host.Outcome State Fault Refusal → Option Fault
  | .fault f => some f
  | _ => none

/-- The cells after one step. -/
def cellsAfter (s : State) : Option (List Int) :=
  (nextOf (step s)).map fun t => t.mem.toList

/-- The `ip` after one step. -/
def ipAfter (s : State) : Option Int :=
  (nextOf (step s)).map fun t => t.ip

/-! ## WellFormed: an ill-formed term for each check -/

theorem test_wellFormed_accepts : ([1, 20001, 203, 104, 1105, 99] : List Int).all wordWellFormed = true := by decide
theorem test_wellFormed_refuses_negative : wordWellFormed (-1) = false := by decide
theorem test_wellFormed_refuses_opcode : wordWellFormed 9 = false := by decide
theorem test_wellFormed_refuses_mode_digit : wordWellFormed 204 = false := by decide
theorem test_wellFormed_refuses_excess : wordWellFormed 10005 = false := by decide
theorem test_canonical_refuses_target_digit : wordCanonical 10001 = false := by decide
theorem test_code_accepts : (Code.mk 1001 [26, -4, 26]).wellFormed = true := by decide
theorem test_code_refuses_word : (Code.mk 82 [26, -4, 26]).wellFormed = false := by decide
theorem test_code_refuses_params : (Code.mk 1001 [26, -4]).wellFormed = false := by decide
/-- 181 valid words and 28 canonical ones (R42). -/
theorem test_wellFormed_counts :
    (Opcode.all.flatMap validWords).length = 181 ∧ (Opcode.all.flatMap canonicalWords).length = 28 := by
  decide +kernel
/-- The lengths of R30. -/
theorem test_lengths : Opcode.all.map Opcode.length = [4, 4, 2, 2, 3, 3, 4, 4, 1] := by decide

/-! ## Decoding: words written out digit by digit from the patterns of R42 -/

/-- V2 101: d4..d0 = 0 0 1 01. -/
theorem test_decode_add : decode 101 = .ok (.add .immediate .position) := by decide
/-- V6 20001: write digit 2 is ignored. -/
theorem test_decode_add_target_digit : decode 20001 = .ok (.add .position .position) := by decide
/-- E2 1002: d4..d0 = 0 1 0 02. -/
theorem test_decode_mult : decode 1002 = .ok (.mult .position .immediate) := by decide
/-- V12 203: d4..d0 = 0 0 2 03. -/
theorem test_decode_input : decode 203 = .ok .input := by decide
/-- V14 104: d4..d0 = 0 0 1 04. -/
theorem test_decode_output : decode 104 = .ok (.output .immediate) := by decide
/-- V16 1005: d4..d0 = 0 1 0 05. -/
theorem test_decode_jumpIfTrue : decode 1005 = .ok (.jumpIfTrue .position .immediate) := by decide
/-- 106: d4..d0 = 0 0 1 06 (R42). -/
theorem test_decode_jumpIfFalse : decode 106 = .ok (.jumpIfFalse .immediate .position) := by decide
/-- V21 1107: d4..d0 = 0 1 1 07. -/
theorem test_decode_lessThan : decode 1107 = .ok (.lessThan .immediate .immediate) := by decide
/-- V25 11108: d4..d0 = 1 1 1 08. -/
theorem test_decode_equals : decode 11108 = .ok (.equals .immediate .immediate) := by decide
/-- E3. -/
theorem test_decode_halt : decode 99 = .ok .halt := by decide
/-- V27, V28, V29, V30. -/
theorem test_decode_invalid_opcode :
    ([0, 9, 82, -1] : List Int).map decode = ([0, 9, 82, -1] : List Int).map fun w => .error (.invalidOpcode w) := by decide
/-- V32, V33. -/
theorem test_decode_bad_mode :
    decode 1205 = .error (.invalidAddressingMode 1205 (.parameter 1)) ∧
    decode 2105 = .error (.invalidAddressingMode 2105 (.parameter 2)) := by decide
/-- V35, V37, V39, V39a. -/
theorem test_decode_excess :
    ([1003, 10005, 100001, 9999] : List Int).map decode =
      ([1003, 10005, 100001, 9999] : List Int).map fun w => .error (.invalidAddressingMode w .excess) := by decide
/-- R44: `MULT [27], #2 -> [27]` begins with 1002. -/
theorem test_encode_mult : encode (.mult .position .immediate) = 1002 := by decide
/-- OUTPUT's row of the table: match 4. -/
theorem test_decodeTableWord : decodeTableWord 8 4 = some (.output .position) := by decide

/-! ## One step of each instruction -/

/-- V56: both operands read cell 1, the target is the instruction's own parameter. -/
theorem test_add_self : cellsAfter (launch [1, 1, 1, 3, 99] []) = some [1, 1, 1, 2, 99] := by decide
/-- V55: a zero result, of a negative operand. -/
theorem test_add_zero : cellsAfter (launch [1101, -7, 7, 5, 99, -1] []) = some [1101, -7, 7, 5, 99, 0] := by decide
/-- V62: exact above 64 bits. -/
theorem test_mult_exact :
    (nextOf (step (launch [1102, 123456789012, 987654321098, 5, 99, 0] []))).bind (fun t => t.mem.read? 5) =
      some 121932631136585886175176 := by decide
/-- V64: writes the HALT that runs next. -/
theorem test_mult_next_word : cellsAfter (launch [1002, 4, 3, 4, 33] []) = some [1002, 4, 3, 4, 99] := by decide
/-- V70: the front is consumed, the rest stays. -/
theorem test_input_fifo :
    (nextOf (step (launch [3, 3, 99, 5] [42, 43]))).map (fun t => (t.mem.toList, t.queue, t.ip)) =
      some ([3, 3, 99, 42], [43], 2) := by decide
/-- V74: the target is checked before the suspension. -/
theorem test_input_target_first :
    faultOf (step (launch [3, -1, 99] [])) = some (.memoryAccessFault 0 (-1) .target) := by decide
/-- V71: suspension. -/
theorem test_input_suspends :
    step (launch [3, 0, 4, 0, 99] []) = .next { launch [3, 0, 4, 0, 99] [] with rs := .awaitingInput } := rfl
/-- V76, first instruction: a negative value is emitted. -/
theorem test_output_immediate : (nextOf (step (launch [104, -9, 4, 0, 99] []))).map (fun t => (t.out, t.ip)) = some ([-9], 2) := by
  decide
/-- V77: the POSITION operand is out of range. -/
theorem test_output_fault : faultOf (step (launch [4, 9, 99] [])) = some (.memoryAccessFault 0 9 (.operand 1)) := by decide
/-- V41 and V40: taken on a negative condition; not taken, the target 7 unchecked. -/
theorem test_jumpIfTrue :
    ipAfter (launch [1105, -5, 4, 99, 99] []) = some 4 ∧ ipAfter (launch [1105, 0, 7, 99] []) = some 3 := by decide
/-- V45: taken to `N`. -/
theorem test_jumpIfTrue_fault : faultOf (step (launch [1105, 1, 3] [])) = some (.memoryAccessFault 0 3 .jump) := by decide
/-- V51 and V50. -/
theorem test_jumpIfFalse :
    ipAfter (launch [1106, 0, 4, 99, 99] []) = some 4 ∧ ipAfter (launch [1106, -5, 4, 99, 99] []) = some 3 := by decide
/-- V80: signed compare. -/
theorem test_lessThan_signed : cellsAfter (launch [1107, -1, 0, 5, 99, 7] []) = some [1107, -1, 0, 5, 99, 1] := by decide
/-- V85: equal is not less, and the result overwrites the opcode cell. -/
theorem test_lessThan_equal : cellsAfter (launch [7, 0, 0, 0, 99] []) = some [0, 0, 0, 0, 99] := by decide
/-- V87. -/
theorem test_equals_true : cellsAfter (launch [1008, 0, 1008, 0, 99] []) = some [1, 0, 1008, 0, 99] := by decide
/-- V84. -/
theorem test_equals_false : cellsAfter (launch [1108, 0, 1, 5, 99, 7] []) = some [1108, 0, 1, 5, 99, 0] := by decide
/-- V91: HALT does not consume input. -/
theorem test_halt : (nextOf (step (launch [99] [5]))).map (fun t => (t.rs, t.queue, t.out)) = some (.halted, [5], []) := by decide

/-! ## Faults of the fetch, the order of checks, and the whole -/

/-- V92. -/
theorem test_fetch_empty : faultOf (step State.reset) = some (.memoryAccessFault 0 0 .fetch) := by decide
/-- V94. -/
theorem test_fetch_negative :
    faultOf (step (invoke (Memory.ofList [99]) [] (-1))) = some (.memoryAccessFault (-1) (-1) .fetch) := by decide
/-- V99: operand 1's address is checked before parameter cell 3. -/
theorem test_order_operand_before_target : faultOf (step (launch [2, 7, 8] [])) = some (.memoryAccessFault 0 7 (.operand 1)) := by
  decide
/-- V98: a mode digit is checked before the parameter cells exist. -/
theorem test_order_decode_first :
    faultOf (step (launch [1205] [])) = some (.invalidAddressingMode 0 1205 (.parameter 1)) := by decide
/-- E8, resumed: the pending INPUT takes the new value. -/
theorem test_resume :
    (nextOf (step (resume { launch [3, 0, 4, 0, 99] [] with rs := .awaitingInput } [7]))).map (fun t => (t.mem.toList, t.ip)) =
      some ([7, 0, 4, 0, 99], 2) := by decide
/-- V63: WidthExceeded on a realisation of 64 bits. -/
theorem test_bounded_width :
    faultOf (boundedStep ⟨some 64, none, none, none⟩ (launch [1102, 123456789012, 987654321098, 5, 99, 0] [])) =
      some (.widthExceeded 0) := by decide
/-- R106: signs and a trailing newline; malformed text is no program. -/
theorem test_loader :
    readProgram "3,+26,-4,0\n".toList = some [3, 26, -4, 0] ∧ readProgram "1,,2".toList = none := by decide
/-- R44: `ADD [26], #-4 -> [26]`, and `JUMP #t` with a label. -/
theorem test_assembler :
    assemble [.add (.pos (.int 26)) (.imm (.int (-4))) (.int 26)] = some [1001, 26, -4, 26] ∧
    assemble [.jump (.imm (.label "end")), .define "end", .halt] = some [1105, 1, 3, 99] := by decide
/-- R101 with one stage: the sole output is the result; a stage that suspends fails the pipeline. -/
theorem test_linear :
    linearPipeline 3 [3, 0, 104, 5, 99] [1] 0 = some (.result 5) ∧
    linearPipeline 1 [3, 0, 3, 0] [] 0 = some (.failed .noStages) := by decide

/-- R102 with two stages that each output what they read last: the last output is the result, and it has been appended to stage 0's
queue when the loop stops (as `Q_0 = [139629729]` in E7), the other queue being empty; a stage that waits for ever gives no end. -/
theorem test_ring :
    (match ringPipeline 5 2 [3, 9, 3, 9, 4, 9, 99, 0, 0, 0] [1, 2] 6 with
      | some (.result v stages) => some (v, stages.map State.queue)
      | _ => none) = some (6, [[6], []]) ∧ ringPipeline 4 3 [3, 0, 3, 0, 3, 0] [1] 0 = none := by decide
/-- R60 and U4: a value that does not fit, and a queue that is full. -/
theorem test_bounded_host :
    faultOf (boundedLaunch ⟨some 8, none, none, none⟩ [128] []) = some (.widthExceeded 0) ∧
    (nextOf (boundedLaunch ⟨some 8, none, none, none⟩ [127, -128] [127])).isSome = true ∧
    nextOf (boundedLaunch ⟨none, some 1, none, none⟩ [1, 2, 3] []) = none ∧
    nextOf (boundedAppend ⟨none, none, some 1, none⟩ (launch [99] [1]) [2]) = none := by decide
/-- R85: the codes. -/
theorem test_fault_codes :
    [FaultKind.invalidOpcode, .invalidAddressingMode, .memoryAccessFault, .widthExceeded].map FaultKind.code = [1, 2, 3, 4] := by
  decide
/-- R44: the cells of `ADD [26], #-4 -> [26]`. -/
theorem test_encodeCode :
    encodeCode (.add .position .immediate) [26, -4, 26] = ⟨1001, [26, -4, 26]⟩ ∧
    (encodeCode (.add .position .immediate) [26, -4, 26]).wellFormed = true := by decide
/-- OUTPUT's row placed at reset runs as the first instruction: it emits cell 0, its own word. -/
theorem test_placed_word :
    (nextOf (step (State.reset.withFetchWord 8 4))).map (fun t => (t.out, t.ip)) = some ([4], 2) := by decide

/-! ## Witnesses: a state and operands that meet all the hypotheses of a statement, one for each of its clauses -/

/-- `ADD #2, #3 -> [5]`, its target the last cell. -/
def adder : State := launch [1101, 2, 3, 5, 99, 0] []

theorem adder_operand1 : OperandIs adder 1 .immediate 2 := rfl
theorem adder_operand2 : OperandIs adder 2 .immediate 3 := rfl
theorem adder_target : TargetIs adder 3 5 := ⟨rfl, by decide⟩

theorem witness_EveryWordOfAnInstructionDecodesToIt :
    (0 : Int) ≤ 9 ∧ (9 : Int) ≤ 9 ∧ ((Instr.add .position .immediate).opcode.hasTarget = false → (9 : Int) = 0) ∧
    (Instr.halt.opcode.hasTarget = false → (0 : Int) = 0) := by decide
theorem witness_DecodedWordIsAnEncoding : decode 90107 = .ok (.lessThan .immediate .position) := by decide
theorem witness_DecodeInjectiveOnCanonicalWords :
    wordCanonical 1101 = true ∧ wordCanonical 1101 = true ∧ decode 1101 = decode 1101 := by decide
theorem witness_IllegalOpcodeFieldFaults :
    ∀ w ∈ ([0, 9, 98, 198] : List Int), 0 ≤ w ∧ w % 100 ∉ ([1, 2, 3, 4, 5, 6, 7, 8, 99] : List Int) := by decide
theorem witness_NegativeWordFaults : (-1 : Int) < 0 := by decide
theorem witness_BadModeDigitFaults :
    ((0 : Int) ≤ 201 ∧ (201 : Int) % 100 = Opcode.add.value ∧ 1 ≤ Opcode.add.reads ∧ 2 ≤ digit 201 2) ∧
    ((0 : Int) ≤ 9105 ∧ (9105 : Int) % 100 = Opcode.jumpIfTrue.value ∧ Opcode.jumpIfTrue.reads = 2 ∧
      digit 9105 2 ≤ 1 ∧ 2 ≤ digit 9105 3) := by decide
theorem witness_ExcessDigitFaults :
    ((199 : Int) % 100 = Opcode.halt.value ∧ (10 : Int) ^ (Opcode.halt.params + 2) ≤ 199 ∧
      (1 ≤ Opcode.halt.reads → digit 199 2 ≤ 1) ∧ (Opcode.halt.reads = 2 → digit 199 3 ≤ 1)) ∧
    ((100001 : Int) % 100 = Opcode.add.value ∧ (10 : Int) ^ (Opcode.add.params + 2) ≤ 100001 ∧
      (1 ≤ Opcode.add.reads → digit 100001 2 ≤ 1) ∧ (Opcode.add.reads = 2 → digit 100001 3 ≤ 1)) := by decide
theorem witness_MemoryPrimitivesCheckTheAddress :
    adder.mem.InRange 0 ∧ adder.mem.InRange 5 ∧ ¬ adder.mem.InRange (-1) ∧ ¬ adder.mem.InRange 6 := by decide
theorem witness_WriteChangesExactlyTheAddressedCell :
    memRead adder 3 .target = .ok 5 ∧ ∃ t, memWrite adder 5 7 .target = .ok t := ⟨rfl, _, rfl⟩
theorem witness_MemoryLengthIsFixed : (∃ t, step adder = .next t) ∧ ∃ i, fetchInstr adder = .ok i := ⟨⟨_, rfl⟩, ⟨_, rfl⟩⟩
theorem witness_CanonicalMemoriesWithEqualCellsAreEqual :
    (Memory.ofList [1, 0, 2]).wf = true ∧ (Memory.mk 3 [(0, 1), (2, 2)]).wf = true ∧
    (Memory.ofList [1, 0, 2]).size = (Memory.mk 3 [(0, 1), (2, 2)]).size ∧
    ∀ a, (Memory.ofList [1, 0, 2]).read? a = (Memory.mk 3 [(0, 1), (2, 2)]).read? a := ⟨rfl, rfl, rfl, fun _ => rfl⟩
theorem witness_LaunchLoadsTheProgram : 0 < ([7] : List Int).length ∧ 1 < ([7, 0] : List Int).length := by decide
theorem witness_StepKeepsStateSound : adder.Inv ∧ ∃ t, step adder = .next t := ⟨by decide, _, rfl⟩
theorem witness_StepRunsTheDecodedInstruction :
    (adder.rs = .running ∧ adder.mem.read? adder.ip = some 1101 ∧ decode 1101 = .ok (.add .immediate .immediate)) ∧
    ((launch [9] []).rs = .running ∧ (launch [9] []).mem.read? 0 = some 9 ∧ decode 9 = .error (.invalidOpcode 9)) := by decide
theorem witness_FetchOutsideMemoryFaults :
    (State.reset.rs = .running ∧ ¬ State.reset.mem.InRange State.reset.ip) ∧
    ((invoke adder.mem [] (-1)).rs = .running ∧ ¬ (invoke adder.mem [] (-1)).mem.InRange (-1)) ∧
    ((invoke adder.mem [] 6).rs = .running ∧ ¬ (invoke adder.mem [] 6).mem.InRange 6) := by decide
theorem witness_StepOutsideRunningChangesNothing :
    { adder with rs := .halted }.rs ≠ .running ∧ { adder with rs := .awaitingInput }.rs ≠ .running := by decide
theorem witness_PlacedWordRunsNext : decodeTableWord 8 4 = some (.output .position) := by decide

/-- For the four statements of results of ADD, MULT, LESS_THAN and EQUALS, whose hypotheses are the same. -/
theorem witness_results : OperandIs adder 1 .immediate 2 ∧ OperandIs adder 2 .immediate 3 ∧ TargetIs adder 3 5 :=
  ⟨adder_operand1, adder_operand2, adder_target⟩
theorem witness_AddStoresTheSum : OperandIs adder 1 .immediate 2 ∧ OperandIs adder 2 .immediate 3 ∧ TargetIs adder 3 5 :=
  witness_results
theorem witness_MultStoresTheProduct : OperandIs adder 1 .immediate 2 ∧ OperandIs adder 2 .immediate 3 ∧ TargetIs adder 3 5 :=
  witness_results
theorem witness_LessThanStoresTheTruthValue :
    OperandIs adder 1 .immediate 2 ∧ OperandIs adder 2 .immediate 3 ∧ TargetIs adder 3 5 := witness_results
theorem witness_EqualsStoresTheTruthValue :
    OperandIs adder 1 .immediate 2 ∧ OperandIs adder 2 .immediate 3 ∧ TargetIs adder 3 5 := witness_results
theorem witness_InputStoresTheFrontOfTheQueue :
    TargetIs (launch [3, 0, 99] [7]) 1 0 ∧ (launch [3, 0, 99] [7]).queue = 7 :: [] := ⟨⟨rfl, by decide⟩, rfl⟩
theorem witness_InputSuspendsOnEmptyQueue :
    ((launch [3, 2, 99] []).rs = .running ∧ (launch [3, 2, 99] []).mem.read? 0 = some 3 ∧ decode 3 = .ok .input ∧
      TargetIs (launch [3, 2, 99] []) 1 2 ∧ (launch [3, 2, 99] []).queue = []) ∧
    ∃ u, step (launch [3, 2, 99] []) = .next u ∧ u.rs = .awaitingInput :=
  ⟨⟨rfl, rfl, rfl, ⟨rfl, by decide⟩, rfl⟩, _, rfl, rfl⟩
theorem witness_OutputAppendsTheOperand : OperandIs (launch [4, 0] []) 1 .position 4 := ⟨0, rfl, rfl⟩

/-- `JUMP_IF_TRUE #a, #b` (or JUMP_IF_FALSE with the same modes), in four cells. -/
def jumper (a b : Int) : State := launch [1105, a, b, 99] []

theorem witness_JumpIfTrueSelectsTheNextIp :
    (OperandIs (jumper (-5) 3) 1 .immediate (-5) ∧ OperandIs (jumper (-5) 3) 2 .immediate 3 ∧ (-5 : Int) ≠ 0 ∧
      (jumper (-5) 3).mem.InRange 3) ∧
    (OperandIs (jumper 0 7) 1 .immediate 0 ∧ OperandIs (jumper 0 7) 2 .immediate 7) :=
  ⟨⟨rfl, rfl, by decide, by decide⟩, rfl, rfl⟩
theorem witness_JumpIfFalseSelectsTheNextIp :
    (OperandIs (jumper 0 0) 1 .immediate 0 ∧ OperandIs (jumper 0 0) 2 .immediate 0 ∧ (jumper 0 0).mem.InRange 0) ∧
    (OperandIs (jumper 1 (-1)) 1 .immediate 1 ∧ OperandIs (jumper 1 (-1)) 2 .immediate (-1) ∧ (1 : Int) ≠ 0) :=
  ⟨⟨rfl, rfl, by decide⟩, rfl, rfl, by decide⟩
theorem witness_StoringInstructionsFrame :
    ∀ i ∈ storingTwo .immediate .immediate, (∃ u, exec i adder = .next u) ∧ adder.mem.read? (adder.ip + 3) = some 5 ∧
      (4 : Int) ≠ 5 := by
  simp only [storingTwo, List.forall_mem_cons]
  exact ⟨⟨⟨_, rfl⟩, rfl, by decide⟩, ⟨⟨_, rfl⟩, rfl, by decide⟩, ⟨⟨_, rfl⟩, rfl, by decide⟩, ⟨⟨_, rfl⟩, rfl, by decide⟩, nofun⟩
theorem witness_InputFrame :
    ((∃ u, exec .input (launch [3, 0, 99] [7]) = .next u) ∧ (launch [3, 0, 99] [7]).queue ≠ []) ∧
    ((∃ u, exec .input (launch [3, 0, 99] []) = .next u) ∧ (launch [3, 0, 99] []).queue = []) :=
  ⟨⟨⟨_, rfl⟩, by decide⟩, ⟨_, rfl⟩, rfl⟩
theorem witness_NonStoringInstructionsFrame :
    (∃ u, exec (.output .position) (launch [4, 0] []) = .next u) ∧
    (∃ u, exec (.jumpIfTrue .immediate .immediate) (jumper 0 7) = .next u) ∧
    (∃ u, exec (.jumpIfFalse .immediate .immediate) (jumper 0 0) = .next u) ∧ (∃ u, exec .halt (launch [99] []) = .next u) :=
  ⟨⟨_, rfl⟩, ⟨_, rfl⟩, ⟨_, rfl⟩, ⟨_, rfl⟩⟩

/-- Every clause of the fault orders of the two-operand shapes, at the boundary: the first missing cell, and the address `N`. -/
theorem witness_StoringInstructionsFaultInOrder :
    Instr.add .position .position ∈ storingTwo .position .position ∧
    (launch [1] []).mem.read? 1 = none ∧
    ((launch [1, 2] []).mem.read? 1 = some 2 ∧ (launch [1, 2] []).mem.read? 2 = none) ∧
    (OperandIs (launch [1, 0] []) 1 .position 1 ∧ (launch [1, 0] []).mem.read? 2 = none) ∧
    (OperandIs (launch [1, 0, 3] []) 1 .position 1 ∧ (launch [1, 0, 3] []).mem.read? 2 = some 3 ∧
      (launch [1, 0, 3] []).mem.read? 3 = none) ∧
    (OperandIs (launch [1, 0, 0] []) 1 .position 1 ∧ OperandIs (launch [1, 0, 0] []) 2 .position 1 ∧
      (launch [1, 0, 0] []).mem.read? 3 = none) ∧
    (OperandIs (launch [1, 0, 0, 4] []) 1 .position 1 ∧ OperandIs (launch [1, 0, 0, 4] []) 2 .position 1 ∧
      (launch [1, 0, 0, 4] []).mem.read? 3 = some 4 ∧ ¬ (launch [1, 0, 0, 4] []).mem.InRange 4) :=
  ⟨by decide, rfl, ⟨rfl, rfl⟩, ⟨⟨0, rfl, rfl⟩, rfl⟩, ⟨⟨0, rfl, rfl⟩, rfl, rfl⟩, ⟨⟨0, rfl, rfl⟩, ⟨0, rfl, rfl⟩, rfl⟩,
    ⟨0, rfl, rfl⟩, ⟨0, rfl, rfl⟩, rfl, by decide⟩
theorem witness_InputChecksItsTargetBeforeSuspending :
    (launch [3] []).mem.read? 1 = none ∧
    ((launch [3, 2] []).mem.read? 1 = some 2 ∧ ¬ (launch [3, 2] []).mem.InRange 2) := by decide
theorem witness_OutputFaultsInOrder :
    (launch [4] []).mem.read? 1 = none ∧
    ((launch [4, 2] []).mem.read? 1 = some 2 ∧ (launch [4, 2] []).mem.read? 2 = none) := by decide
theorem witness_JumpsFaultInOrder :
    Instr.jumpIfTrue .position .position ∈ jumps .position .position ∧
    (launch [5] []).mem.read? 1 = none ∧
    ((launch [5, 2] []).mem.read? 1 = some 2 ∧ (launch [5, 2] []).mem.read? 2 = none) ∧
    (OperandIs (launch [5, 0] []) 1 .position 5 ∧ (launch [5, 0] []).mem.read? 2 = none) ∧
    (OperandIs (launch [5, 0, 3] []) 1 .position 5 ∧ (launch [5, 0, 3] []).mem.read? 2 = some 3 ∧
      (launch [5, 0, 3] []).mem.read? 3 = none) ∧
    (OperandIs (launch [5, 0, 0] []) 1 .position 5 ∧ OperandIs (launch [5, 0, 0] []) 2 .position 5 ∧
      (Instr.jumpIfTrue .position .position = .jumpIfTrue .position .position ↔ (5 : Int) ≠ 0) ∧
      ¬ (launch [5, 0, 0] []).mem.InRange 5) ∧
    (OperandIs (launch [1106, 0, 3] []) 1 .immediate 0 ∧ OperandIs (launch [1106, 0, 3] []) 2 .immediate 3 ∧
      (Instr.jumpIfFalse .immediate .immediate = .jumpIfTrue .immediate .immediate ↔ (0 : Int) ≠ 0) ∧
      ¬ (launch [1106, 0, 3] []).mem.InRange 3) :=
  ⟨by decide, rfl, ⟨rfl, rfl⟩, ⟨⟨0, rfl, rfl⟩, rfl⟩, ⟨⟨0, rfl, rfl⟩, rfl, rfl⟩,
    ⟨⟨0, rfl, rfl⟩, ⟨0, rfl, rfl⟩, by decide, by decide⟩, rfl, rfl, by decide, by decide⟩
theorem witness_StepRaisesOnlyTheThreeFaults :
    (∃ f, step State.reset = .fault f) ∧ (∃ f, step (launch [9] []) = .fault f) ∧ ∃ f, step (launch [199] []) = .fault f :=
  ⟨⟨_, rfl⟩, ⟨_, rfl⟩, ⟨_, rfl⟩⟩
theorem witness_QueueOnlyShrinksAndOutputOnlyGrows :
    (∃ t, step (launch [3, 0, 99] [7]) = .next t) ∧ ∃ t, step (launch [104, 1] []) = .next t := ⟨⟨_, rfl⟩, ⟨_, rfl⟩⟩
theorem witness_OnlyHaltAndStarvedInputStopTheEngine :
    (∃ t, (launch [99] []).rs = .running ∧ step (launch [99] []) = .next t ∧ t.rs ≠ .running) ∧
    ∃ t, (launch [3, 0] []).rs = .running ∧ step (launch [3, 0] []) = .next t ∧ t.rs ≠ .running :=
  ⟨⟨_, rfl, rfl, by decide⟩, _, rfl, rfl, by decide⟩
theorem witness_HaltedEngineHaltsAgain :
    ∃ t, (launch [99] []).rs = .running ∧ step (launch [99] []) = .next t ∧ t.rs = .halted := ⟨_, rfl, rfl, rfl⟩
/-- V65 and V64. -/
theorem witness_WrittenWordIsFetchedNext :
    (OperandIs (launch [1101, 100, -1, 4, 0] []) 1 .immediate 100 ∧ OperandIs (launch [1101, 100, -1, 4, 0] []) 2 .immediate (-1) ∧
      TargetIs (launch [1101, 100, -1, 4, 0] []) 3 4 ∧ decode (100 + -1) = .ok .halt) ∧
    (OperandIs (launch [1002, 4, 3, 4, 33] []) 1 .position 33 ∧ OperandIs (launch [1002, 4, 3, 4, 33] []) 2 .immediate 3 ∧
      TargetIs (launch [1002, 4, 3, 4, 33] []) 3 4 ∧ decode (33 * 3) = .ok .halt) :=
  ⟨⟨rfl, rfl, ⟨rfl, by decide⟩, by decide⟩, ⟨4, rfl, rfl⟩, rfl, ⟨rfl, by decide⟩, by decide⟩

/-- A comparison of `#a` and `#b` into cell 10, then `JUMP_IF_TRUE [10], #9`. -/
def comparer (w a b : Int) : State := launch [w, a, b, 10, 1005, 10, 9, 99, 99, 99, 0] []

theorem witness_ComparisonResultDrivesTheJumps :
    (∃ u, OperandIs (comparer 1107 (-1) 0) 1 .immediate (-1) ∧ OperandIs (comparer 1107 (-1) 0) 2 .immediate 0 ∧
      TargetIs (comparer 1107 (-1) 0) 3 10 ∧ u.mem.read? (u.ip + 1) = some 10 ∧ OperandIs u 2 .immediate 9 ∧ u.mem.InRange 9 ∧
      exec (.lessThan .immediate .immediate) (comparer 1107 (-1) 0) = .next u) ∧
    (∃ u, OperandIs (comparer 1108 5 5) 1 .immediate 5 ∧ OperandIs (comparer 1108 5 5) 2 .immediate 5 ∧
      TargetIs (comparer 1108 5 5) 3 10 ∧ u.mem.read? (u.ip + 1) = some 10 ∧ OperandIs u 2 .immediate 9 ∧ u.mem.InRange 9 ∧
      exec (.equals .immediate .immediate) (comparer 1108 5 5) = .next u) := by
  refine ⟨⟨_, rfl, rfl, ⟨rfl, by decide⟩, ?_, ?_, ?_, rfl⟩, ⟨_, rfl, rfl, ⟨rfl, by decide⟩, ?_, ?_, ?_, rfl⟩⟩
  all_goals first | rfl | decide
theorem witness_AppendedInputLeavesTheStepAlone :
    ∃ t, adder.rs = .running ∧ step adder = .next t ∧ t.rs ≠ .awaitingInput := ⟨_, rfl, rfl, by decide⟩
/-- E8: `OUTPUT #7; INPUT -> [7]`, resumed with 42 to its HALT. -/
theorem witness_ResumptionIsTransparent :
    ∃ t r, (launch [104, 7, 3, 7, 4, 7, 99, 0] []).rs = .running ∧
      runFrom 2 (launch [104, 7, 3, 7, 4, 7, 99, 0] []) = some (.suspended t) ∧
      runFrom 3 (resume t [42]) = some r := ⟨_, _, rfl, rfl, rfl⟩
theorem witness_OutcomeDoesNotDependOnFuel : ∃ r, runFrom 1 (launch [99] []) = some r := ⟨_, rfl⟩
theorem witness_BoundedStepNeverWraps :
    (∃ t, boundedStep ⟨some 64, some 3, none, some 0⟩ adder = .next t) ∧
    ∀ c ∈ adder.mem.cells, fitsWidth (some 64) c.2 = true := ⟨⟨_, rfl⟩, by decide⟩
/-- Two cells of address 0 and 1 fit one bit, with an address of each side of the range check; three cells do not. -/
theorem witness_FiniteAddressesNeverShow :
    fitsAddresses (some 1) (launch [3, 0] []).mem.size = true ∧ fitsAddresses (some 1) (launch [3, 0, 99] []).mem.size = false ∧
    (∃ s, boundedLaunch ⟨none, some 1, none, none⟩ [3, 0] [] = .next s) ∧
    ∃ t, boundedStep ⟨none, some 1, none, none⟩ (launch [3, 0] []) = .next t :=
  ⟨by decide, by decide, ⟨_, rfl⟩, _, rfl⟩
theorem witness_RingStopsAfterPassingTheLastOutputs :
    ∃ stages', ringLoop 3 1 0 (ringStages [3, 0, 104, 5, 99] [1] 0) none = some (.result 5 stages') := ⟨_, rfl⟩
theorem witness_RingStagesShareNoState :
    ((2 : Nat) ≠ 0 ∧ (2 : Nat) ≠ (0 + 1) % [adder, adder, adder].length) ∧
    ((1 : Nat) ≠ 0 ∧ (1 : Nat) = (0 + 1) % [adder, adder, adder].length) := by decide

end Sys2Proof.Tests
end

section
/-! The memory's length (10_state.md R13): it is fixed at load, and no effect of an instruction changes it. -/

namespace Sys2Proof.Machine

/-- A loaded memory has one cell per integer. -/
@[simp] theorem Memory.size_ofList (vs : List Int) : (Memory.ofList vs).size = vs.length := rfl

/-- A cell can be read exactly where the address is in range. -/
theorem Memory.exists_read?_eq_some_iff {m : Memory} {a : Int} : (∃ v, m.read? a = some v) ↔ m.InRange a :=
  ⟨fun ⟨_, hv⟩ => Memory.inRange_of_read? hv, fun ha => ⟨_, Memory.read?_of_inRange ha⟩⟩

/-- Only the two effects with a write replace the memory, and a write keeps the length. -/
theorem Effect.size_mem {s t : State} (h : Effect s t) : t.mem.size = s.mem.size := by
  cases h with
  | stored _ _ _ hm | popped _ _ hm => exact Memory.size_write? hm
  | suspended | emitted | jumped | notTaken | halted => rfl

/-- No step changes the length of memory. -/
theorem size_mem_of_step {s t : State} (h : step s = .next t) : t.mem.size = s.mem.size := by
  obtain ⟨-, rfl⟩ | ⟨-, heffect⟩ := step_next_cases h
  · rfl
  · exact heffect.size_mem

/-- Settles O12: the length at load is the program's, each effect of a step keeps it, a read answers exactly in range, and a
fetch decodes a word that was read from the same memory. -/
theorem memoryLengthIsFixed : Obligations.MemoryLengthIsFixed :=
  ⟨fun program _ => Memory.size_ofList program, fun _ _ => size_mem_of_step, fun _ _ => Memory.exists_read?_eq_some_iff,
    fun _ _ => fetchInstr_eq_ok.1⟩

end Sys2Proof.Machine
end

section
/-! The frame of a memory write (20_memory.md R24): one cell changes, and no other field of the state. -/

namespace Sys2Proof.Machine

/-- Replacing the memory leaves the queue, the run-state and the output. -/
theorem sameButMemoryAndIp_setMem (s : State) (m : Memory) : SameButMemoryAndIp s (s.setMem m) :=
  ⟨s.setMem_queue m, s.setMem_rs m, s.setMem_out m⟩

/-- A write that answers replaced the memory by one in which exactly the addressed cell changed. -/
theorem memWrite_frame {s t : State} {a v : Int} {acc : Access} (h : memWrite s a v acc = .ok t) :
    MemoryChangedAt s.mem t.mem a v ∧ SameButMemoryAndIp s t ∧ t.ip = s.ip := by
  obtain ⟨m, hm, rfl⟩ := memWrite_eq_ok.1 h
  exact ⟨.of_write? hm, sameButMemoryAndIp_setMem s m, s.setMem_ip m⟩

/-- Settles O11: a read answers by the memory's own read, and a write answers the state with the written memory. -/
theorem writeChangesExactlyTheAddressedCell : Obligations.WriteChangesExactlyTheAddressedCell :=
  ⟨fun _ _ _ _ => memRead_eq_ok, fun _ _ _ _ _ => memWrite_frame⟩

end Sys2Proof.Machine
end

section
/-! The decoder's opcode field (30_encoding.md R32, R38). -/

namespace Sys2Proof

/-- The table lists every opcode. -/
theorem Opcode.mem_all (op : Opcode) : op ∈ Opcode.all := by
  cases op <;> decide

/-- The value of an opcode selects that opcode. -/
@[simp] theorem opcodeOfField_value (op : Opcode) : opcodeOfField op.value = some op := by
  cases op <;> rfl

/-- A field selects no opcode exactly where it is the value of none. -/
theorem opcodeOfField_eq_none {field : Int} : opcodeOfField field = none ↔ ∀ op : Opcode, op.value ≠ field := by
  simp [opcodeOfField, Opcode.mem_all]

/-- A word whose opcode field selects no opcode raises InvalidOpcode (R38), whatever its sign (R37). -/
theorem decode_of_opcodeOfField_eq_none {w : Int} (h : opcodeOfField (w % 100) = none) :
    decode w = .error (.invalidOpcode w) := by
  simp only [decode, h, ite_self]

/-- Past the opcode field, a non-negative word decodes as a word of its opcode. -/
theorem decode_of_field_eq_value {w : Int} {op : Opcode} (hw : 0 ≤ w) (hfield : w % 100 = op.value) :
    decode w = decodeAs w op := by
  simp only [decode, if_neg (not_lt.2 hw), hfield, opcodeOfField_value]

/-- The nine legal fields are the values of the nine opcodes. -/
theorem Opcode.value_mem_legalFields (op : Opcode) : op.value ∈ ([1, 2, 3, 4, 5, 6, 7, 8, 99] : List Int) := by
  cases op <;> decide

/-- Settles O6: a field outside the nine legal ones is no opcode's value, so it selects no opcode. -/
theorem illegalOpcodeFieldFaults : Obligations.IllegalOpcodeFieldFaults := by
  intro w _ hillegal
  have hnone : ∀ op : Opcode, op.value ≠ w % 100 := fun op hop => hillegal (hop ▸ op.value_mem_legalFields)
  exact decode_of_opcodeOfField_eq_none (opcodeOfField_eq_none.2 hnone)

end Sys2Proof
end

section
/-! The decoder's mode digits (30_encoding.md R34, R36, R39). -/

namespace Sys2Proof

/-- A digit is not negative. -/
theorem digit_nonneg (w : Int) (k : Nat) : 0 ≤ digit w k :=
  Int.emod_nonneg _ (by decide)

/-- A mode digit of 2 or more is refused, and the report names its parameter. -/
theorem decodeMode_of_two_le {w : Int} {k : Nat} (h : 2 ≤ digit w (k + 1)) :
    decodeMode w k = .error (.invalidAddressingMode w (.parameter k)) := by
  have h0 : digit w (k + 1) ≠ 0 := by omega
  have h1 : digit w (k + 1) ≠ 1 := by omega
  simp only [decodeMode, if_neg h0, if_neg h1]

/-- A mode digit of 0 or 1 has a mode. -/
theorem decodeMode_of_le_one {w : Int} {k : Nat} (h : digit w (k + 1) ≤ 1) : ∃ m, decodeMode w k = .ok m := by
  have hnonneg := digit_nonneg w (k + 1)
  obtain h0 | h1 : digit w (k + 1) = 0 ∨ digit w (k + 1) = 1 := by omega
  · exact ⟨.position, by simp [decodeMode, h0]⟩
  · exact ⟨.immediate, by simp [decodeMode, h1]⟩

/-- An opcode with two read parameters decodes both modes. -/
theorem decodeAs_of_reads_eq_two {op : Opcode} (h : op.reads = 2) : ∃ mk, ∀ w, decodeAs w op = decodeTwo w mk := by
  cases op with
  | add | mult | jumpIfTrue | jumpIfFalse | lessThan | equals => exact ⟨_, fun _ => rfl⟩
  | input | output | halt => cases h

/-- An opcode with one read parameter decodes one mode. -/
theorem decodeAs_of_reads_eq_one {op : Opcode} (h : op.reads = 1) : ∃ mk, ∀ w, decodeAs w op = decodeOne w mk := by
  cases op with
  | output => exact ⟨_, fun _ => rfl⟩
  | add | mult | input | jumpIfTrue | jumpIfFalse | lessThan | equals | halt => cases h

/-- No opcode has more than two read parameters. -/
theorem Opcode.reads_le_two (op : Opcode) : op.reads ≤ 2 := by
  cases op <;> decide

/-- The first parameter's mode is decoded before all else, so its fault is the word's. -/
theorem decodeAs_of_first_mode_error {w : Int} {op : Opcode} {e : DecodeFault} (hreads : 1 ≤ op.reads)
    (hfirst : decodeMode w 1 = .error e) : decodeAs w op = .error e := by
  have hle := op.reads_le_two
  obtain hone | htwo : op.reads = 1 ∨ op.reads = 2 := by omega
  · obtain ⟨mk, hmk⟩ := decodeAs_of_reads_eq_one hone
    rw [hmk, decodeOne, hfirst]
    rfl
  · obtain ⟨mk, hmk⟩ := decodeAs_of_reads_eq_two htwo
    rw [hmk, decodeTwo, hfirst]
    rfl

/-- The second parameter's mode is decoded once the first has one, and before the excess digits. -/
theorem decodeAs_of_second_mode_error {w : Int} {op : Opcode} {m : Mode} {e : DecodeFault} (hreads : op.reads = 2)
    (hfirst : decodeMode w 1 = .ok m) (hsecond : decodeMode w 2 = .error e) : decodeAs w op = .error e := by
  obtain ⟨mk, hmk⟩ := decodeAs_of_reads_eq_two hreads
  rw [hmk, decodeTwo, hfirst, hsecond]
  rfl

/-- Settles O8: the first bad mode digit stops the decoding of the word's opcode, with that parameter in the report. -/
theorem badModeDigitFaults : Obligations.BadModeDigitFaults := by
  intro w op hw hfield
  rw [decode_of_field_eq_value hw hfield]
  constructor
  · intro hreads hbad
    exact decodeAs_of_first_mode_error hreads (decodeMode_of_two_le hbad)
  · intro hreads hgood hbad
    obtain ⟨m, hfirst⟩ := decodeMode_of_le_one hgood
    exact decodeAs_of_second_mode_error hreads hfirst (decodeMode_of_two_le hbad)

end Sys2Proof
end

section
/-! The running step as its phases (40_execution_cycle.md R47, R49): the fetched word alone decides what runs. -/

namespace Sys2Proof.Machine

/-- A running step whose fetch answers an instruction executes it. -/
theorem step_of_fetchInstr_ok {s : State} {i : Instr} (hrs : s.rs = .running) (hfetch : fetchInstr s = .ok i) :
    step s = exec i s := by
  simp only [step, hrs, hfetch]

/-- A running step whose fetch or decoding fails ends with that fault. -/
theorem step_of_fetchInstr_error {s : State} {f : Fault} (hrs : s.rs = .running) (hfetch : fetchInstr s = .error f) :
    step s = .fault f := by
  simp only [step, hrs, hfetch, raise]

/-- A running step executes the instruction that the word at `ip` decodes to. -/
theorem step_of_decode_ok {s : State} {w : Int} {i : Instr} (hrs : s.rs = .running) (hw : s.mem.read? s.ip = some w)
    (hi : decode w = .ok i) : step s = exec i s :=
  step_of_fetchInstr_ok hrs (fetchInstr_eq_ok.2 ⟨w, hw, hi⟩)

/-- A running step at a word that does not decode ends with the decode fault, reported at `ip`. -/
theorem step_of_decode_error {s : State} {w : Int} {e : DecodeFault} (hrs : s.rs = .running)
    (hw : s.mem.read? s.ip = some w) (he : decode w = .error e) : step s = .fault (DecodeFault.at e s.ip) :=
  step_of_fetchInstr_error hrs (fetchInstr_eq_error.2 (.inr ⟨w, e, hw, he, rfl⟩))

/-- Settles O17: the fetch answers what the word at `ip` decodes to, and reads no other cell. -/
theorem stepRunsTheDecodedInstruction : Obligations.StepRunsTheDecodedInstruction :=
  fun s _ hrs hw => ⟨fun _ => step_of_decode_ok hrs hw, fun _ he => ⟨s.ip, step_of_decode_error hrs hw he⟩⟩

end Sys2Proof.Machine
end

section
/-! Suspension (40_execution_cycle.md R52): which instructions change the run-state, and INPUT on an empty queue. -/

namespace Sys2Proof.Machine

/-- An instruction with two operands and a write target keeps the run-state. -/
theorem rs_of_computeAndStore {op : Opcode} {f : Int → Int → Int} {m1 m2 : Mode} {s u : State}
    (h : computeAndStore op f m1 m2 s = .ok u) : u.rs = s.rs := by
  obtain ⟨_, _, _, _, -, -, -, -, rfl⟩ := computeAndStore_eq_ok.1 h
  rfl

/-- A jump, taken or not, keeps the run-state. -/
theorem rs_of_testAndJump {op : Opcode} {takes : Int → Bool} {m1 m2 : Mode} {s u : State}
    (h : testAndJump op takes m1 m2 s = .ok u) : u.rs = s.rs := by
  obtain ⟨_, _, -, -, ⟨-, -, rfl⟩ | ⟨-, rfl⟩⟩ := testAndJump_eq_ok.1 h <;> rfl

/-- An instruction keeps the run-state, unless it is HALT or an INPUT that finds the queue empty; each of those changes nothing
else. -/
theorem exec_rs_cases {i : Instr} {s u : State} (h : exec i s = .next u) :
    u.rs = s.rs ∨ (i = .halt ∧ u = s.setRs .halted) ∨ (i = .input ∧ s.queue = [] ∧ u = s.setRs .awaitingInput) := by
  cases i with
  | add | mult | lessThan | equals => exact .inl (rs_of_computeAndStore (finish_eq_next.1 h))
  | jumpIfTrue | jumpIfFalse => exact .inl (rs_of_testAndJump (finish_eq_next.1 h))
  | output =>
    obtain ⟨_, -, rfl⟩ := readAndEmit_eq_ok.1 (finish_eq_next.1 h)
    exact .inl rfl
  | input =>
    obtain ⟨_, -, ⟨hq, rfl⟩ | ⟨_, _, _, -, -, rfl⟩⟩ := popAndStore_eq_ok.1 (finish_eq_next.1 h)
    · exact .inr (.inr ⟨rfl, hq, rfl⟩)
    · exact .inl rfl
  | halt =>
    cases h
    exact .inr (.inl ⟨rfl, rfl⟩)

/-- INPUT with its target in range and an empty queue changes the run-state alone. -/
theorem exec_input_of_queue_eq_nil {s : State} {t : Int} (ht : TargetIs s 1 t) (hq : s.queue = []) :
    exec .input s = .next (s.setRs .awaitingInput) :=
  finish_eq_next.2 (popAndStore_eq_ok.2 ⟨t, ht, .inl ⟨hq, rfl⟩⟩)

/-- Only an INPUT that finds the queue empty takes a running engine to AWAITING_INPUT. -/
theorem exec_suspends {i : Instr} {s u : State} (hrs : s.rs = .running) (h : exec i s = .next u)
    (hu : u.rs = .awaitingInput) : i = .input ∧ s.queue = [] := by
  obtain hsame | ⟨-, rfl⟩ | ⟨hi, hq, -⟩ := exec_rs_cases h
  · rw [hsame, hrs] at hu
    cases hu
  · cases hu
  · exact ⟨hi, hq⟩

/-- Settles O26: the step runs INPUT, which suspends; resumption keeps memory and `ip`, so the same word is fetched again; and no
other instruction suspends. -/
theorem inputSuspendsOnEmptyQueue : Obligations.InputSuspendsOnEmptyQueue := by
  constructor
  · intro s w t hrs hw hi ht hq
    constructor
    · rw [step_of_decode_ok hrs hw hi]
      exact exec_input_of_queue_eq_nil ht hq
    · intro xs
      exact step_of_decode_ok (resume_rs _ xs) hw hi
  · intro s u hrs hstep hu
    obtain ⟨w, i, hw, hi, hexec⟩ := (step_running_eq_next hrs).1 hstep
    obtain ⟨rfl, hq⟩ := exec_suspends hrs hexec hu
    exact ⟨hq, w, hw, hi⟩

end Sys2Proof.Machine
end

section
/-! Decoding and encoding agree (30_encoding.md section 4): a word decodes to an instruction exactly where its digits are that
instruction's, so exactly where it is the canonical word with some digit in the write target's place. -/

namespace Sys2Proof

/-- The digits of `w` from position `k` on are those of a mode list. -/
def HasModesAt (w : Int) : List Mode → Nat → Prop
  | [], _ => True
  | m :: ms, k => digit w k = m.digit ∧ HasModesAt w ms (k + 1)

/-- `x` may stand in the write target's place of a word of the opcode: a digit, and 0 where there is no target. -/
def Opcode.IsTargetDigit (op : Opcode) (x : Int) : Prop :=
  0 ≤ x ∧ x ≤ 9 ∧ (op.hasTarget = false → x = 0)

theorem Mode.digit_eq_zero_or_one (m : Mode) : m.digit = 0 ∨ m.digit = 1 := by
  cases m <;> simp [Mode.digit]

theorem decodeMode_eq_ok {w : Int} {k : Nat} {m : Mode} : decodeMode w k = .ok m ↔ digit w (k + 1) = m.digit := by
  unfold decodeMode
  split
  next h0 => cases m <;> simp [Mode.digit, h0]
  next h0 =>
    split
    next h1 => cases m <;> simp [Mode.digit, h1]
    next h1 => cases m <;> simp [Mode.digit, h0, h1]

theorem checkExcess_eq_ok {w : Int} {i j : Instr} :
    checkExcess w i = .ok j ↔ j = i ∧ w / 10 ^ (i.opcode.params + 2) = 0 := by
  by_cases h : w / 10 ^ (i.opcode.params + 2) = 0 <;> simp [checkExcess, h, eq_comm]

theorem decodeTwo_eq_ok {w : Int} {mk : Mode → Mode → Instr} {i : Instr} :
    decodeTwo w mk = .ok i ↔
      ∃ m1 m2, digit w 2 = m1.digit ∧ digit w 3 = m2.digit ∧ i = mk m1 m2 ∧ w / 10 ^ ((mk m1 m2).opcode.params + 2) = 0 := by
  simp only [decodeTwo, Machine.then_eq_ok, decodeMode_eq_ok, checkExcess_eq_ok, exists_and_left]

theorem decodeOne_eq_ok {w : Int} {mk : Mode → Instr} {i : Instr} :
    decodeOne w mk = .ok i ↔ ∃ m1, digit w 2 = m1.digit ∧ i = mk m1 ∧ w / 10 ^ ((mk m1).opcode.params + 2) = 0 := by
  simp only [decodeOne, Machine.then_eq_ok, decodeMode_eq_ok, checkExcess_eq_ok]

/-- Past the opcode field, a word decodes exactly to the instruction of that opcode whose modes its digits are, and only without
an excess digit. -/
theorem decodeAs_eq_ok {w : Int} {op : Opcode} {i : Instr} :
    decodeAs w op = .ok i ↔ i.opcode = op ∧ HasModesAt w i.modes 2 ∧ w / 10 ^ (op.params + 2) = 0 := by
  constructor
  · intro h
    cases op with
    | add | mult | jumpIfTrue | jumpIfFalse | lessThan | equals =>
      obtain ⟨m1, m2, h1, h2, rfl, hx⟩ := decodeTwo_eq_ok.1 h
      exact ⟨rfl, ⟨h1, h2, trivial⟩, hx⟩
    | output =>
      obtain ⟨m1, h1, rfl, hx⟩ := decodeOne_eq_ok.1 h
      exact ⟨rfl, ⟨h1, trivial⟩, hx⟩
    | input | halt =>
      obtain ⟨rfl, hx⟩ := checkExcess_eq_ok.1 h
      exact ⟨rfl, trivial, hx⟩
  · rintro ⟨rfl, hm, hx⟩
    cases i with
    | add m1 m2 | mult m1 m2 | jumpIfTrue m1 m2 | jumpIfFalse m1 m2 | lessThan m1 m2 | equals m1 m2 =>
      exact decodeTwo_eq_ok.2 ⟨m1, m2, hm.1, hm.2.1, rfl, hx⟩
    | output m1 => exact decodeOne_eq_ok.2 ⟨m1, hm.1, rfl, hx⟩
    | input | halt => exact checkExcess_eq_ok.2 ⟨rfl, hx⟩

/-- A field selects an opcode exactly where it is its value. -/
theorem opcodeOfField_eq_some {field : Int} {op : Opcode} : opcodeOfField field = some op ↔ field = op.value := by
  constructor
  · intro h
    have hbeq := List.find?_some h
    exact (beq_iff_eq.1 hbeq).symm
  · rintro rfl
    exact opcodeOfField_value op

/-- A negative word raises InvalidOpcode (R37). -/
theorem decode_of_neg {w : Int} (h : w < 0) : decode w = .error (.invalidOpcode w) := by
  simp only [decode, if_pos h]

/-- A word that decodes is not negative. -/
theorem nonneg_of_decode_eq_ok {w : Int} {i : Instr} (h : decode w = .ok i) : 0 ≤ w := by
  by_contra hneg
  rw [decode_of_neg (not_le.1 hneg)] at h
  cases h

/-- The digits of a word that decodes: all of them. -/
theorem decode_eq_ok {w : Int} {i : Instr} :
    decode w = .ok i ↔
      0 ≤ w ∧ w % 100 = i.opcode.value ∧ HasModesAt w i.modes 2 ∧ w / 10 ^ (i.opcode.params + 2) = 0 := by
  constructor
  · intro h
    have hw := nonneg_of_decode_eq_ok h
    cases hop : opcodeOfField (w % 100) with
    | none =>
      rw [decode_of_opcodeOfField_eq_none hop] at h
      cases h
    | some op =>
      have hfield := opcodeOfField_eq_some.1 hop
      rw [decode_of_field_eq_value hw hfield] at h
      obtain ⟨rfl, hrest⟩ := decodeAs_eq_ok.1 h
      exact ⟨hw, hfield, hrest⟩
  · rintro ⟨hw, hfield, hrest⟩
    rw [decode_of_field_eq_value hw hfield]
    exact decodeAs_eq_ok.2 ⟨rfl, hrest⟩

/-- Digit by digit, a word with an instruction's opcode field and modes and no excess digit is an encoding of it. In each shape of
instruction both sides are linear in the word, its quotients by powers of ten and the mode digits. -/
theorem digits_iff_encoding {w : Int} {i : Instr} :
    (0 ≤ w ∧ w % 100 = i.opcode.value ∧ HasModesAt w i.modes 2 ∧ w / 10 ^ (i.opcode.params + 2) = 0) ↔
      i.opcode.IsTargetDigit (w / 10 ^ (i.opcode.reads + 2)) ∧ w = encodeWithTargetDigit i (w / 10 ^ (i.opcode.reads + 2)) := by
  have hdigits : ∀ m ∈ i.modes, m.digit = 0 ∨ m.digit = 1 := fun m _ => m.digit_eq_zero_or_one
  cases i <;>
    simp [HasModesAt, Opcode.IsTargetDigit, encodeWithTargetDigit, encode, encodeModes, Instr.opcode, Instr.modes, Opcode.value,
      Opcode.params, Opcode.reads, Opcode.hasTarget, digit] at hdigits ⊢ <;>
    omega

/-- The canonical word lies below the write target's place. -/
theorem encode_nonneg_and_lt (i : Instr) : 0 ≤ encode i ∧ encode i < 10 ^ (i.opcode.reads + 2) := by
  cases i with
  | add m1 m2 | mult m1 m2 | jumpIfTrue m1 m2 | jumpIfFalse m1 m2 | lessThan m1 m2 | equals m1 m2 =>
    cases m1 <;> cases m2 <;> decide
  | output m1 => cases m1 <;> decide
  | input | halt => decide

/-- The write target's digit can be read off the word. -/
theorem encodeWithTargetDigit_ediv (i : Instr) (x : Int) : encodeWithTargetDigit i x / 10 ^ (i.opcode.reads + 2) = x := by
  obtain ⟨hnonneg, hlt⟩ := encode_nonneg_and_lt i
  rw [encodeWithTargetDigit, Int.add_mul_ediv_right _ _ (pow_ne_zero _ (by decide)), Int.ediv_eq_zero_of_lt hnonneg hlt,
    zero_add]

/-- A word decodes exactly to the instruction that it is an encoding of. -/
theorem decode_eq_ok_iff_encoding {w : Int} {i : Instr} :
    decode w = .ok i ↔ ∃ x, i.opcode.IsTargetDigit x ∧ w = encodeWithTargetDigit i x := by
  rw [decode_eq_ok, digits_iff_encoding]
  constructor
  · exact fun h => ⟨_, h⟩
  · rintro ⟨x, hx, rfl⟩
    rw [encodeWithTargetDigit_ediv]
    exact ⟨hx, rfl⟩

/-- The canonical word is the one with 0 as its write target's digit. -/
theorem encode_eq_encodeWithTargetDigit_zero (i : Instr) : encode i = encodeWithTargetDigit i 0 := by
  simp [encodeWithTargetDigit]

/-- Decoding undoes encoding. -/
@[simp] theorem decode_encode (i : Instr) : decode (encode i) = .ok i :=
  decode_eq_ok_iff_encoding.2 ⟨0, ⟨le_rfl, by decide, fun _ => rfl⟩, encode_eq_encodeWithTargetDigit_zero i⟩

/-- Settles O2: every encoding of an instruction decodes to it, whatever its target digit. -/
theorem everyWordOfAnInstructionDecodesToIt : Obligations.EveryWordOfAnInstructionDecodesToIt :=
  fun _ x h0 h9 htarget => decode_eq_ok_iff_encoding.2 ⟨x, ⟨h0, h9, htarget⟩, rfl⟩

/-- Settles O3: the target digit is the word's digit above the mode digits. -/
theorem decodedWordIsAnEncoding : Obligations.DecodedWordIsAnEncoding := by
  intro w i h
  obtain ⟨x, ⟨h0, h9, htarget⟩, hw⟩ := decode_eq_ok_iff_encoding.1 h
  exact ⟨x, h0, h9, htarget, hw⟩

/-- Settles O7: the sign is the decoder's first check. -/
theorem negativeWordFaults : Obligations.NegativeWordFaults :=
  fun _ => decode_of_neg

/-- Settles O1: the decoder runs on each of the eleven words. -/
theorem sampleWordsDecode : Obligations.SampleWordsDecode := by
  unfold Obligations.SampleWordsDecode
  decide

end Sys2Proof
end

section
/-! The table of valid words (30_encoding.md R42): its rows list the encodings of their opcode's instructions. -/

namespace Sys2Proof

/-- The words of a pattern are the sums of their digits. -/
theorem mem_patternWords {w v : Int} {d2 d3 d4 : List Int} :
    w ∈ patternWords v d2 d3 d4 ↔ ∃ a ∈ d2, ∃ b ∈ d3, ∃ x ∈ d4, w = 10000 * x + 1000 * b + 100 * a + v := by
  simp only [patternWords, List.mem_flatMap, List.mem_map]
  constructor
  · rintro ⟨x, hx, b, hb, a, ha, rfl⟩
    exact ⟨a, ha, b, hb, x, hx, rfl⟩
  · rintro ⟨a, ha, b, hb, x, hx, rfl⟩
    exact ⟨x, hx, b, hb, a, ha, rfl⟩

/-- The mode digits are the digits of the modes. -/
theorem mem_modeDigits {a : Int} : a ∈ modeDigits ↔ ∃ m : Mode, a = m.digit := by
  constructor
  · intro h
    obtain rfl | rfl : a = 0 ∨ a = 1 := by simpa [modeDigits] using h
    exacts [⟨.position, rfl⟩, ⟨.immediate, rfl⟩]
  · rintro ⟨m, rfl⟩
    cases m <;> decide

/-- The instruction of an opcode with the modes that it has room for. -/
def Opcode.instr (op : Opcode) (m1 m2 : Mode) : Instr :=
  match op with
  | .add => .add m1 m2
  | .mult => .mult m1 m2
  | .input => .input
  | .output => .output m1
  | .jumpIfTrue => .jumpIfTrue m1 m2
  | .jumpIfFalse => .jumpIfFalse m1 m2
  | .lessThan => .lessThan m1 m2
  | .equals => .equals m1 m2
  | .halt => .halt

@[simp] theorem Opcode.opcode_instr (op : Opcode) (m1 m2 : Mode) : (op.instr m1 m2).opcode = op := by
  cases op <;> rfl

/-- Every instruction is its opcode with its modes. -/
theorem Instr.exists_eq_instr (i : Instr) : ∃ m1 m2, i = i.opcode.instr m1 m2 := by
  cases i with
  | add m1 m2 | mult m1 m2 | jumpIfTrue m1 m2 | jumpIfFalse m1 m2 | lessThan m1 m2 | equals m1 m2 => exact ⟨m1, m2, rfl⟩
  | output m1 => exact ⟨m1, .position, rfl⟩
  | input | halt => exact ⟨.position, .position, rfl⟩

/-- The words of a pattern with two mode digits, its last place taken from `d4`. -/
theorem mem_patternWords_modes {w v : Int} {d4 : List Int} :
    w ∈ patternWords v modeDigits modeDigits d4 ↔
      ∃ m1 m2 : Mode, ∃ x ∈ d4, w = v + encodeModes [m1, m2] 2 + x * 10 ^ 4 := by
  simp only [mem_patternWords, mem_modeDigits, encodeModes]
  constructor
  · rintro ⟨_, ⟨m1, rfl⟩, _, ⟨m2, rfl⟩, x, hx, rfl⟩
    exact ⟨m1, m2, x, hx, by ring⟩
  · rintro ⟨m1, m2, x, hx, rfl⟩
    exact ⟨_, ⟨m1, rfl⟩, _, ⟨m2, rfl⟩, x, hx, by ring⟩

/-- The words of a pattern with one digit above the opcode field, taken from `d2`. -/
theorem mem_patternWords_single {w v : Int} {d2 : List Int} :
    w ∈ patternWords v d2 zeroDigit zeroDigit ↔ ∃ x ∈ d2, w = v + encodeModes [] 2 + x * 10 ^ 2 := by
  simp [mem_patternWords, zeroDigit, encodeModes, mul_comm, add_comm]

/-- The words of a pattern with one mode digit. -/
theorem mem_patternWords_mode {w v : Int} :
    w ∈ patternWords v modeDigits zeroDigit zeroDigit ↔ ∃ m1 : Mode, w = v + encodeModes [m1] 2 := by
  simp [mem_patternWords_single, mem_modeDigits, encodeModes]

/-- The digits of the write target's place: those of `d`, or zero where there is no target. -/
def Opcode.targetDigits (op : Opcode) (d : List Int) : List Int :=
  if op.hasTarget then d else zeroDigit

/-- The row of an opcode in the table, the write target's digit taken from `d`. -/
def tableRow (d : List Int) : Opcode → List Int
  | .input => patternWords Opcode.input.value d zeroDigit zeroDigit
  | .output => patternWords Opcode.output.value modeDigits zeroDigit zeroDigit
  | .halt => patternWords Opcode.halt.value zeroDigit zeroDigit zeroDigit
  | op => patternWords op.value modeDigits modeDigits (op.targetDigits d)

theorem validWords_eq_tableRow (op : Opcode) : validWords op = tableRow anyDigits op := by
  cases op <;> rfl

theorem canonicalWords_eq_tableRow (op : Opcode) : canonicalWords op = tableRow zeroDigit op := by
  cases op <;> rfl

/-- A row lists the encodings of its opcode's instructions. -/
theorem mem_tableRow {d : List Int} {op : Opcode} {w : Int} :
    w ∈ tableRow d op ↔ ∃ m1 m2, ∃ x ∈ op.targetDigits d, w = encodeWithTargetDigit (op.instr m1 m2) x := by
  cases op with
  | add | mult | jumpIfTrue | jumpIfFalse | lessThan | equals => exact mem_patternWords_modes
  | input | halt =>
    exact mem_patternWords_single.trans
      ⟨fun ⟨x, hx, hw⟩ => ⟨.position, .position, x, hx, hw⟩, fun ⟨_, _, x, hx, hw⟩ => ⟨x, hx, hw⟩⟩
  | output =>
    have hzero := fun m1 => encode_eq_encodeWithTargetDigit_zero (.output m1)
    refine mem_patternWords_mode.trans ⟨fun ⟨m1, hw⟩ => ?_, fun ⟨m1, _, x, hx, hw⟩ => ?_⟩
    · exact ⟨m1, .position, 0, List.mem_singleton_self 0, hw.trans (hzero m1)⟩
    · obtain rfl := List.mem_singleton.1 hx
      exact ⟨m1, hw.trans (hzero m1).symm⟩

/-- The ten digits are those that may stand in the write target's place. -/
theorem mem_targetDigits_anyDigits {op : Opcode} {x : Int} : x ∈ op.targetDigits anyDigits ↔ op.IsTargetDigit x := by
  cases h : op.hasTarget with
  | true =>
    simp [Opcode.targetDigits, Opcode.IsTargetDigit, anyDigits, h]
    omega
  | false =>
    simp [Opcode.targetDigits, Opcode.IsTargetDigit, zeroDigit, h]
    omega

/-- In a canonical word that place holds zero. -/
theorem mem_targetDigits_zeroDigit {op : Opcode} {x : Int} : x ∈ op.targetDigits zeroDigit ↔ x = 0 := by
  simp [Opcode.targetDigits, zeroDigit]

/-- A word is valid exactly where it is an encoding. -/
theorem wordWellFormed_iff_encoding {w : Int} :
    wordWellFormed w = true ↔ ∃ (i : Instr) (x : Int), i.opcode.IsTargetDigit x ∧ w = encodeWithTargetDigit i x := by
  simp only [wordWellFormed, List.any_eq_true, List.contains_iff_mem, validWords_eq_tableRow, mem_tableRow,
    mem_targetDigits_anyDigits]
  constructor
  · rintro ⟨op, -, m1, m2, x, hx, hw⟩
    exact ⟨op.instr m1 m2, x, by simpa using hx, hw⟩
  · rintro ⟨i, x, hx, hw⟩
    obtain ⟨m1, m2, hi⟩ := i.exists_eq_instr
    exact ⟨i.opcode, Opcode.mem_all _, m1, m2, x, hx, hi ▸ hw⟩

/-- A canonical word is the canonical encoding of an instruction. -/
theorem exists_encode_of_wordCanonical {w : Int} (h : wordCanonical w = true) : ∃ i, w = encode i := by
  simp only [wordCanonical, List.any_eq_true, List.contains_iff_mem, canonicalWords_eq_tableRow, mem_tableRow,
    mem_targetDigits_zeroDigit] at h
  obtain ⟨op, -, m1, m2, x, rfl, hw⟩ := h
  exact ⟨op.instr m1 m2, hw.trans (encode_eq_encodeWithTargetDigit_zero _).symm⟩

/-- Settles O4: both sides say that the word is an encoding of an instruction. -/
theorem decodeAcceptsExactlyTheValidWords : Obligations.DecodeAcceptsExactlyTheValidWords := by
  intro w
  simp only [wordWellFormed_iff_encoding, decode_eq_ok_iff_encoding]

/-- Settles O5: a canonical word is the encoding of what it decodes to. -/
theorem decodeInjectiveOnCanonicalWords : Obligations.DecodeInjectiveOnCanonicalWords := by
  intro w w' hw hw' hdecode
  obtain ⟨i, rfl⟩ := exists_encode_of_wordCanonical hw
  obtain ⟨j, rfl⟩ := exists_encode_of_wordCanonical hw'
  rw [decode_encode, decode_encode] at hdecode
  rw [Except.ok.inj hdecode]

end Sys2Proof
end

section
/-! Excess digits (30_encoding.md R41). -/

namespace Sys2Proof

theorem checkExcess_of_ne_zero {w : Int} {i : Instr} (h : w / 10 ^ (i.opcode.params + 2) ≠ 0) :
    checkExcess w i = .error (.invalidAddressingMode w .excess) :=
  if_pos h

/-- Once every read parameter has a mode, an excess digit is reported. -/
theorem decodeAs_of_excess {w : Int} {op : Opcode} (hfirst : 1 ≤ op.reads → ∃ m, decodeMode w 1 = .ok m)
    (hsecond : op.reads = 2 → ∃ m, decodeMode w 2 = .ok m) (hexcess : w / 10 ^ (op.params + 2) ≠ 0) :
    decodeAs w op = .error (.invalidAddressingMode w .excess) := by
  cases op with
  | add | mult | jumpIfTrue | jumpIfFalse | lessThan | equals =>
    obtain ⟨m1, h1⟩ := hfirst (by decide)
    obtain ⟨m2, h2⟩ := hsecond rfl
    rw [decodeAs, decodeTwo, h1, h2]
    exact checkExcess_of_ne_zero hexcess
  | output =>
    obtain ⟨m1, h1⟩ := hfirst (by decide)
    rw [decodeAs, decodeOne, h1]
    exact checkExcess_of_ne_zero hexcess
  | input | halt => exact checkExcess_of_ne_zero hexcess

/-- Settles O9: the mode digits of 0 and 1 pass, and a word of at least `10 ^ (P + 2)` has a nonzero quotient by it. -/
theorem excessDigitFaults : Obligations.ExcessDigitFaults := by
  intro w op hfield hlarge hfirst hsecond
  have hpow : (0 : Int) < 10 ^ (op.params + 2) := by positivity
  rw [decode_of_field_eq_value (hpow.le.trans hlarge) hfield]
  have hquot : 1 ≤ w / 10 ^ (op.params + 2) := Int.le_ediv_of_mul_le hpow (by rwa [one_mul])
  exact decodeAs_of_excess (fun h => decodeMode_of_le_one (hfirst h)) (fun h => decodeMode_of_le_one (hsecond h)) (by omega)

end Sys2Proof
end

section
/-! The memory primitives (20_memory.md R20), and that the canonical form of a memory is unique (log 4). -/

namespace Sys2Proof.Machine

/-- Settles O10: both primitives answer through the memory's own read and write, which check the range. -/
theorem memoryPrimitivesCheckTheAddress : Obligations.MemoryPrimitivesCheckTheAddress := by
  intro s a v acc
  constructor
  · intro hin
    have hread := Memory.read?_of_inRange hin
    have hwrite := Memory.write?_of_inRange v hin
    obtain ⟨-, hback, -⟩ := MemoryChangedAt.of_write? hwrite
    exact ⟨⟨_, hread, memRead_eq_ok.2 hread⟩, _, memWrite_eq_ok.2 ⟨_, hwrite, rfl⟩, memRead_eq_ok.2 hback⟩
  · intro hout
    exact ⟨memRead_eq_error.2 ⟨Memory.read?_eq_none.2 hout, rfl⟩, memWrite_eq_error.2 ⟨hout, rfl⟩⟩

/-- A canonical list lists nothing below its lower bound. -/
theorem lookupCell_of_lt {cs : List Cell} {lo hi a : Nat} (h : cellsCanonical cs lo hi = true) (ha : a < lo) :
    lookupCell cs a = Memory.unlisted := by
  induction cs generalizing lo with
  | nil => rfl
  | cons c cs ih =>
    obtain ⟨hlo, -, -, hcs⟩ := cellsCanonical_cons.1 h
    rw [lookupCell, if_neg (by omega)]
    exact ih hcs (by omega)

/-- The first entry of a list is the one looked up at its address. -/
theorem lookupCell_head (c : Cell) (cs : List Cell) : lookupCell (c :: cs) c.1 = c.2 :=
  if_pos rfl

/-- The first address of a canonical list is not below that of another with the same lookups. -/
theorem head_le_of_lookupCell_eq {c c' : Cell} {cs cs' : List Cell} {lo lo' hi hi' : Nat}
    (h : cellsCanonical (c :: cs) lo hi = true) (h' : cellsCanonical (c' :: cs') lo' hi' = true)
    (heq : lookupCell (c :: cs) c.1 = lookupCell (c' :: cs') c.1) : c'.1 ≤ c.1 := by
  obtain ⟨-, -, hv, -⟩ := cellsCanonical_cons.1 h
  obtain ⟨-, hlt, hv', hcs'⟩ := cellsCanonical_cons.1 h'
  by_contra hn
  have hnone : lookupCell (c' :: cs') c.1 = Memory.unlisted :=
    lookupCell_of_lt (cellsCanonical_cons.2 ⟨le_rfl, hlt, hv', hcs'⟩) (not_le.1 hn)
  exact hv ((lookupCell_head c cs).symm.trans (heq.trans hnone))

/-- Canonical lists with the same lookups are equal. -/
theorem cells_eq_of_lookupCell_eq {cs cs' : List Cell} {lo hi : Nat} (h : cellsCanonical cs lo hi = true)
    (h' : cellsCanonical cs' lo hi = true) (heq : ∀ a < hi, lookupCell cs a = lookupCell cs' a) : cs = cs' := by
  induction cs generalizing cs' lo with
  | nil =>
    cases cs' with
    | nil => rfl
    | cons c' cs' =>
      obtain ⟨-, hlt, hv, -⟩ := cellsCanonical_cons.1 h'
      exact absurd ((lookupCell_head c' cs').symm.trans (heq c'.1 hlt).symm) hv
  | cons c cs ih =>
    obtain ⟨-, hlt, hv, hcs⟩ := cellsCanonical_cons.1 h
    cases cs' with
    | nil => exact absurd ((lookupCell_head c cs).symm.trans (heq c.1 hlt)) hv
    | cons c' cs' =>
      obtain ⟨-, hlt', -, hcs'⟩ := cellsCanonical_cons.1 h'
      have haddr : c.1 = c'.1 :=
        le_antisymm (head_le_of_lookupCell_eq h' h (heq c'.1 hlt').symm) (head_le_of_lookupCell_eq h h' (heq c.1 hlt))
      have hval : c.2 = c'.2 := by
        have hhead := heq c.1 hlt
        rwa [lookupCell_head, haddr, lookupCell_head] at hhead
      have htail : cs = cs' := by
        refine ih hcs (haddr ▸ hcs') fun a ha => ?_
        by_cases hle : a ≤ c.1
        · rw [lookupCell_of_lt hcs (Nat.lt_succ_of_le hle), lookupCell_of_lt hcs' (by omega)]
        · have hrest := heq a ha
          rwa [lookupCell, lookupCell, if_neg (by omega), if_neg (by omega)] at hrest
      rw [Prod.ext haddr hval, htail]

/-- Settles O13: equal reads are equal lookups below the length, and those determine a canonical list. -/
theorem canonicalMemoriesWithEqualCellsAreEqual : Obligations.CanonicalMemoriesWithEqualCellsAreEqual := by
  rintro ⟨n, cs⟩ ⟨n', cs'⟩ hwf hwf' hsize hread
  obtain rfl : n = n' := hsize
  have hlookup : ∀ a < n, lookupCell cs a = lookupCell cs' a := by
    intro a ha
    have hin : (0 : Int) ≤ a ∧ (a : Int) < n := by omega
    have hcell := hread a
    rw [Memory.read?_of_inRange hin, Memory.read?_of_inRange hin] at hcell
    exact Option.some.inj hcell
  have hcells : cs = cs' := cells_eq_of_lookupCell_eq hwf hwf' hlookup
  rw [hcells]

end Sys2Proof.Machine
end

section
/-! The launch (10_state.md R19) and the invariant of a sound state. -/

namespace Sys2Proof.Machine

/-- A loaded memory reads as the list it was loaded from. -/
theorem Memory.read?_ofList {vs : List Int} {k : Nat} (hk : k < vs.length) : (Memory.ofList vs).read? k = vs[k]? := by
  have hin : (Memory.ofList vs).InRange k := by
    constructor
    · exact Int.natCast_nonneg k
    · exact_mod_cast hk
  rw [Memory.read?_of_inRange hin, Memory.ofList, lookupCell_cellsFrom]
  simp [hk]

/-- A launched state is sound. -/
theorem inv_launch (program inputs : List Int) : (launch program inputs).Inv :=
  ⟨Memory.wf_ofList program, le_rfl, Int.natCast_nonneg _⟩

/-- Settles O15: the fields of the launch, and the loaded memory cell by cell. -/
theorem launchLoadsTheProgram : Obligations.LaunchLoadsTheProgram :=
  fun program inputs => ⟨rfl, fun _ => Memory.read?_ofList, rfl, rfl, rfl, rfl, inv_launch program inputs⟩

/-- Settles O14: the empty memory is canonical, and the fields are those of `State.reset`. -/
theorem resetStateIsSound : Obligations.ResetStateIsSound :=
  ⟨⟨Memory.wf_reset, le_rfl, le_rfl⟩, rfl, rfl, rfl, rfl, rfl⟩

/-- An advance stays within `[0, N]` where the last of the cells advanced over exists. -/
theorem advance_in_bounds {m : Memory} {ip v : Int} {k n : Nat} (hip : 0 ≤ ip) (hcell : m.read? (ip + k) = some v)
    (hn : n = k + 1) : 0 ≤ ip + n ∧ ip + n ≤ m.size := by
  obtain ⟨-, hlt⟩ := Memory.inRange_of_read? hcell
  omega

/-- Every effect keeps the state sound: a write keeps the canonical form, an advance passes over cells that exist, and a taken
jump goes to an address in range. -/
theorem Effect.inv {s t : State} (heffect : Effect s t) (hinv : s.Inv) : t.Inv := by
  obtain ⟨hwf, hip, hle⟩ := hinv
  cases heffect with
  | stored op hlen hcell hm =>
    have hbounds := advance_in_bounds (k := 3) hip hcell hlen
    exact ⟨Memory.wf_write? hwf hm, hbounds.1, (Memory.size_write? hm).symm ▸ hbounds.2⟩
  | popped hcell hq hm =>
    have hbounds := advance_in_bounds (k := 1) hip hcell rfl
    exact ⟨Memory.wf_write? hwf hm, hbounds.1, (Memory.size_write? hm).symm ▸ hbounds.2⟩
  | emitted v hcell => exact ⟨hwf, advance_in_bounds (k := 1) hip hcell rfl⟩
  | notTaken op hlen hcell => exact ⟨hwf, advance_in_bounds (k := 2) hip hcell hlen⟩
  | jumped hb => exact ⟨hwf, hb.1, hb.2.le⟩
  | suspended | halted => exact ⟨hwf, hip, hle⟩

/-- Settles O16: outside RUNNING nothing changes, and a running step has one effect. -/
theorem stepKeepsStateSound : Obligations.StepKeepsStateSound := by
  intro s t hinv hstep
  obtain ⟨-, rfl⟩ | ⟨-, heffect⟩ := step_next_cases hstep
  · exact hinv
  · exact heffect.inv hinv

end Sys2Proof.Machine
end

section
/-! The step at its edges: a fetch outside memory, a step outside RUNNING, and a placed word. -/

namespace Sys2Proof.Machine

/-- Settles O18: the fetch fails before anything is decoded. -/
theorem fetchOutsideMemoryFaults : Obligations.FetchOutsideMemoryFaults :=
  fun _ hrs hout => step_of_fetchInstr_error hrs (fetchInstr_eq_error.2 (.inl ⟨Memory.read?_eq_none.2 hout, rfl⟩))

/-- Settles O19: such a step is idle. -/
theorem stepOutsideRunningChangesNothing : Obligations.StepOutsideRunningChangesNothing :=
  fun _ => step_not_running

@[simp] theorem Memory.size_storeList (m : Memory) (a : Nat) (vs : List Int) : (m.storeList a vs).size = m.size := by
  induction vs generalizing m a with
  | nil => rfl
  | cons v vs ih => exact ih _ _

/-- Storing a list from `a` on leaves the cells below `a`. -/
theorem lookupCell_storeList_of_lt {m : Memory} {a b : Nat} (vs : List Int) (h : b < a) :
    lookupCell (m.storeList a vs).cells b = lookupCell m.cells b := by
  induction vs generalizing m a with
  | nil => rfl
  | cons v vs ih => rw [Memory.storeList, ih (by omega), lookupCell_updateCell, if_neg (by omega)]

/-- The first value of a stored list is at its address. -/
theorem lookupCell_storeList_head (m : Memory) (a : Nat) (v : Int) (vs : List Int) :
    lookupCell (m.storeList a (v :: vs)).cells a = v := by
  rw [Memory.storeList, lookupCell_storeList_of_lt vs (Nat.lt_succ_self a), lookupCell_updateCell, if_pos rfl]

/-- A placed word is read where the next step fetches. -/
theorem read?_placeWord (s : State) (nbits w : Nat) :
    (placeWord s nbits w).mem.read? (placeWord s nbits w).ip = some (w : Int) := by
  have hin : (placeWord s nbits w).mem.InRange (placeWord s nbits w).ip := by
    simp [placeWord, Memory.InRange, Memory.growTo]
  rw [Memory.read?_of_inRange hin]
  exact congrArg some (lookupCell_storeList_head _ _ _ _)

/-- The host's view of the decoder is the decoder. -/
theorem decodeTableWord_eq_some {nbits w : Nat} {i : Instr} : decodeTableWord nbits w = some i ↔ decode w = .ok i := by
  unfold decodeTableWord
  cases decode w <;> simp [Except.toOption]

/-- Settles O20: the run-state is RUNNING, and the word at `ip` is the placed one. -/
theorem placedWordRunsNext : Obligations.PlacedWordRunsNext :=
  fun s nbits w _ hi => step_of_decode_ok rfl (read?_placeWord s nbits w) (decodeTableWord_eq_some.1 hi)

end Sys2Proof.Machine
end

section
/-! What each instruction does where its checks pass (41_arithmetic.md to 45_halt.md). -/

namespace Sys2Proof.Machine

/-- An instruction with two operands and a target stores its function's value there and advances. -/
theorem computeAndStore_completes {op : Opcode} {f : Int → Int → Int} {m1 m2 : Mode} {s : State} {a b t : Int}
    (ha : OperandIs s 1 m1 a) (hb : OperandIs s 2 m2 b) (ht : TargetIs s 3 t) :
    ∃ u, finish (computeAndStore op f m1 m2 s) = .next u ∧ MemoryChangedAt s.mem u.mem t (f a b) ∧
      u.ip = s.ip + op.length ∧ SameButMemoryAndIp s u := by
  obtain ⟨m, hm⟩ := ht.write? (f a b)
  exact ⟨_, finish_eq_next.2 (computeAndStore_eq_ok.2 ⟨a, b, t, m, ha, hb, ht, hm, rfl⟩), .of_write? hm, rfl, rfl, rfl, rfl⟩

/-- Settles O21: ADD's function is the sum, and its length 4. -/
theorem addStoresTheSum : Obligations.AddStoresTheSum :=
  fun _ _ _ _ _ _ ha hb ht => computeAndStore_completes (op := .add) (f := aluAdd) ha hb ht

/-- Settles O22: MULT's function is the product, and its length 4. -/
theorem multStoresTheProduct : Obligations.MultStoresTheProduct :=
  fun _ _ _ _ _ _ ha hb ht => computeAndStore_completes (op := .mult) (f := aluMul) ha hb ht

/-- The ALU's comparisons as conditional values. -/
theorem aluLt_eq (a b : Int) : aluLt a b = if a < b then 1 else 0 := by
  simp [aluLt, truthValue]

theorem aluEq_eq (a b : Int) : aluEq a b = if a = b then 1 else 0 := by
  simp [aluEq, truthValue]

/-- Settles O23: LESS_THAN's function is the comparison's truth value, and its length 4. -/
theorem lessThanStoresTheTruthValue : Obligations.LessThanStoresTheTruthValue :=
  fun _ _ _ a b _ ha hb ht => aluLt_eq a b ▸ computeAndStore_completes (op := .lessThan) (f := aluLt) ha hb ht

/-- Settles O24: EQUALS's function is the comparison's truth value, and its length 4. -/
theorem equalsStoresTheTruthValue : Obligations.EqualsStoresTheTruthValue :=
  fun _ _ _ a b _ ha hb ht => aluEq_eq a b ▸ computeAndStore_completes (op := .equals) (f := aluEq) ha hb ht

/-- Settles O25: the checked target takes the popped value. -/
theorem inputStoresTheFrontOfTheQueue : Obligations.InputStoresTheFrontOfTheQueue := by
  intro s t x q ht hq
  obtain ⟨m, hm⟩ := ht.write? x
  exact ⟨_, finish_eq_next.2 (popAndStore_eq_ok.2 ⟨t, ht, .inr ⟨x, q, m, hq, hm, rfl⟩⟩), .of_write? hm, rfl, rfl, rfl, rfl⟩

/-- Settles O27: the operand is emitted, and OUTPUT's length is 2. -/
theorem outputAppendsTheOperand : Obligations.OutputAppendsTheOperand :=
  fun _ _ a ha => finish_eq_next.2 (readAndEmit_eq_ok.2 ⟨a, ha, rfl⟩)

/-- A jump whose first operand makes it taken goes to its second, in range. -/
theorem testAndJump_taken {op : Opcode} {takes : Int → Bool} {m1 m2 : Mode} {s : State} {a b : Int}
    (ha : OperandIs s 1 m1 a) (hb : OperandIs s 2 m2 b) (htakes : takes a = true) (hin : s.mem.InRange b) :
    finish (testAndJump op takes m1 m2 s) = .next (s.setIp b) :=
  finish_eq_next.2 (testAndJump_eq_ok.2 ⟨a, b, ha, hb, .inl ⟨htakes, hin, rfl⟩⟩)

/-- A jump that is not taken advances, whatever its second operand. -/
theorem testAndJump_not_taken {op : Opcode} {takes : Int → Bool} {m1 m2 : Mode} {s : State} {a b : Int}
    (ha : OperandIs s 1 m1 a) (hb : OperandIs s 2 m2 b) (htakes : takes a = false) :
    finish (testAndJump op takes m1 m2 s) = .next (advance s op) :=
  finish_eq_next.2 (testAndJump_eq_ok.2 ⟨a, b, ha, hb, .inr ⟨htakes, rfl⟩⟩)

theorem operandIsTrue_eq_true {a : Int} : operandIsTrue a = true ↔ a ≠ 0 := decide_eq_true_iff

theorem operandIsTrue_eq_false {a : Int} : operandIsTrue a = false ↔ a = 0 := by
  simp [operandIsTrue]

/-- Settles O28: taken exactly on what reads as true. -/
theorem jumpIfTrueSelectsTheNextIp : Obligations.JumpIfTrueSelectsTheNextIp :=
  fun _ _ _ _ _ ha hb => ⟨fun hne hin => testAndJump_taken ha hb (operandIsTrue_eq_true.2 hne) hin,
    fun heq => testAndJump_not_taken ha hb (operandIsTrue_eq_false.2 heq)⟩

/-- Settles O29: taken exactly on what reads as false. -/
theorem jumpIfFalseSelectsTheNextIp : Obligations.JumpIfFalseSelectsTheNextIp :=
  fun _ _ _ _ _ ha hb =>
    ⟨fun heq hin => testAndJump_taken ha hb (congrArg not (operandIsTrue_eq_false.2 heq)) hin,
    fun hne => testAndJump_not_taken ha hb (congrArg not (operandIsTrue_eq_true.2 hne))⟩

/-- Settles O30: HALT checks nothing and sets the run-state alone. -/
theorem haltEndsTheInvocation : Obligations.HaltEndsTheInvocation :=
  fun s => ⟨s.setRs .halted, rfl, rfl, rfl, rfl, rfl⟩

end Sys2Proof.Machine
end

section
/-! The two shared shapes: the instructions with two operands and a target, and the jumps. -/

namespace Sys2Proof.Machine

/-- Each of the four storing instructions is `computeAndStore` of some function. -/
theorem exec_of_mem_storingTwo {i : Instr} {m1 m2 : Mode} (h : i ∈ storingTwo m1 m2) :
    ∃ op f, ∀ s, exec i s = finish (computeAndStore op f m1 m2 s) := by
  obtain rfl | rfl | rfl | rfl : i = .add m1 m2 ∨ i = .mult m1 m2 ∨ i = .lessThan m1 m2 ∨ i = .equals m1 m2 := by
    simpa [storingTwo] using h
  all_goals exact ⟨_, _, fun _ => rfl⟩

/-- Each jump is `testAndJump`; JUMP_IF_TRUE is taken on a nonzero operand, JUMP_IF_FALSE on the others. -/
theorem exec_of_mem_jumps {i : Instr} {m1 m2 : Mode} (h : i ∈ jumps m1 m2) :
    ∃ op takes, (∀ a : Int, takes a = true ↔ (i = .jumpIfTrue m1 m2 ↔ a ≠ 0)) ∧
      ∀ s, exec i s = finish (testAndJump op takes m1 m2 s) := by
  obtain rfl | rfl : i = .jumpIfTrue m1 m2 ∨ i = .jumpIfFalse m1 m2 := by simpa [jumps] using h
  all_goals exact ⟨_, _, fun a => by simp [operandIsTrue], fun _ => rfl⟩

end Sys2Proof.Machine
end

section
/-! Frames: what an instruction leaves unchanged (40_execution_cycle.md section 2). -/

namespace Sys2Proof.Machine

/-- Settles O31: the one write goes to the address that parameter 3 holds. -/
theorem storingInstructionsFrame : Obligations.StoringInstructionsFrame := by
  intro m1 m2 i s u hi hexec
  obtain ⟨op, f, hshape⟩ := exec_of_mem_storingTwo hi
  rw [hshape] at hexec
  obtain ⟨a, b, t, m, -, -, ⟨hcell, -⟩, hm, rfl⟩ := computeAndStore_eq_ok.1 (finish_eq_next.1 hexec)
  obtain ⟨hsize, -, hother⟩ := MemoryChangedAt.of_write? hm
  refine ⟨⟨rfl, rfl, rfl⟩, hsize, fun t' ht' c hc => ?_⟩
  obtain rfl : t = t' := Option.some.inj (hcell.symm.trans ht')
  exact hother c hc

/-- Settles O32: a suspension changes the run-state alone, a pop writes to the address that parameter 1 holds. -/
theorem inputFrame : Obligations.InputFrame := by
  intro s u hexec
  obtain ⟨t, ⟨hcell, -⟩, ⟨hq, rfl⟩ | ⟨x, q, m, hq, hm, rfl⟩⟩ := popAndStore_eq_ok.1 (finish_eq_next.1 hexec)
  · exact ⟨rfl, rfl, by simp [hq], fun hne => absurd hq hne, fun _ => ⟨rfl, rfl⟩, fun _ _ _ _ => rfl⟩
  · obtain ⟨hsize, -, hother⟩ := MemoryChangedAt.of_write? hm
    refine ⟨rfl, hsize, by simp [hq], fun _ => rfl, fun hnil => by simp [hq] at hnil, fun t' ht' c hc => ?_⟩
    obtain rfl : t = t' := Option.some.inj (hcell.symm.trans ht')
    exact hother c hc

/-- Settles O33: OUTPUT emits and advances, a jump sets `ip`, HALT sets the run-state. -/
theorem nonStoringInstructionsFrame : Obligations.NonStoringInstructionsFrame := by
  intro i s u hi hexec
  cases i with
  | add | mult | input | lessThan | equals => cases hi
  | output =>
    obtain ⟨a, -, rfl⟩ := readAndEmit_eq_ok.1 (finish_eq_next.1 hexec)
    exact ⟨rfl, fun _ => rfl, rfl, fun hne => absurd rfl hne, fun _ => rfl⟩
  | jumpIfTrue | jumpIfFalse =>
    obtain ⟨a, b, -, -, ⟨-, -, rfl⟩ | ⟨-, rfl⟩⟩ := testAndJump_eq_ok.1 (finish_eq_next.1 hexec) <;>
      exact ⟨rfl, fun _ => rfl, rfl, fun _ => rfl, fun _ => rfl⟩
  | halt =>
    cases hexec
    exact ⟨rfl, fun _ => rfl, rfl, fun _ => rfl, fun hne => absurd rfl hne⟩

end Sys2Proof.Machine
end

section
/-! Faults in the order of the checks (60_exceptions.md R87). -/

namespace Sys2Proof.Machine

/-- A read parameter's missing cell is its fault. -/
theorem readOperand_of_cell_eq_none {s : State} {k : Nat} (m : Mode) (h : s.mem.read? (s.ip + k) = none) :
    readOperand s k m = .error (.memoryAccessFault s.ip (s.ip + k) (.parameter k)) :=
  readOperand_eq_error.2 (.inl ⟨h, rfl⟩)

/-- A POSITION operand's missing cell is its fault. -/
theorem readOperand_of_operand_eq_none {s : State} {k : Nat} {m : Mode} {p : Int} (hm : m = .position)
    (hp : s.mem.read? (s.ip + k) = some p) (h : s.mem.read? p = none) :
    readOperand s k m = .error (.memoryAccessFault s.ip p (.operand k)) :=
  readOperand_eq_error.2 (.inr ⟨hm, p, hp, h, rfl⟩)

/-- A write target's missing cell is its fault. -/
theorem writeTarget_of_cell_eq_none {s : State} {k : Nat} (h : s.mem.read? (s.ip + k) = none) :
    writeTarget s k = .error (.memoryAccessFault s.ip (s.ip + k) (.parameter k)) :=
  writeTarget_eq_error.2 (.inl ⟨h, rfl⟩)

/-- A write target out of range is its fault. -/
theorem writeTarget_of_not_inRange {s : State} {k : Nat} {t : Int} (ht : s.mem.read? (s.ip + k) = some t)
    (h : ¬ s.mem.InRange t) : writeTarget s k = .error (.memoryAccessFault s.ip t .target) :=
  writeTarget_eq_error.2 (.inr ⟨t, ht, h, rfl⟩)

/-- Settles O34: each phase's fault is the instruction's once the phases before it have passed. -/
theorem storingInstructionsFaultInOrder : Obligations.StoringInstructionsFaultInOrder := by
  intro m1 m2 i s hi
  obtain ⟨op, f, hshape⟩ := exec_of_mem_storingTwo hi
  simp only [hshape, finish_eq_fault, computeAndStore_eq_error]
  refine ⟨fun h => .inl ?_, fun p hm hp h => .inl ?_, fun a ha h => .inr ⟨a, ha, .inl ?_⟩,
    fun a p ha hm hp h => .inr ⟨a, ha, .inl ?_⟩, fun a b ha hb h => .inr ⟨a, ha, .inr ⟨b, hb, ?_⟩⟩,
    fun a b t ha hb ht h => .inr ⟨a, ha, .inr ⟨b, hb, ?_⟩⟩⟩
  · exact readOperand_of_cell_eq_none m1 h
  · exact readOperand_of_operand_eq_none hm hp h
  · exact readOperand_of_cell_eq_none m2 h
  · exact readOperand_of_operand_eq_none hm hp h
  · exact writeTarget_of_cell_eq_none h
  · exact writeTarget_of_not_inRange ht h

/-- Settles O37: the operands' faults in order, then the range check of a taken jump's target. -/
theorem jumpsFaultInOrder : Obligations.JumpsFaultInOrder := by
  intro m1 m2 i s hi
  obtain ⟨op, takes, htakes, hshape⟩ := exec_of_mem_jumps hi
  simp only [hshape, finish_eq_fault, testAndJump_eq_error]
  refine ⟨fun h => .inl ?_, fun p hm hp h => .inl ?_, fun a ha h => .inr ⟨a, ha, .inl ?_⟩,
    fun a p ha hm hp h => .inr ⟨a, ha, .inl ?_⟩, fun a b ha hb htaken h => .inr ⟨a, ha, .inr ⟨b, hb, ?_⟩⟩⟩
  · exact readOperand_of_cell_eq_none m1 h
  · exact readOperand_of_operand_eq_none hm hp h
  · exact readOperand_of_cell_eq_none m2 h
  · exact readOperand_of_operand_eq_none hm hp h
  · exact ⟨(htakes a).2 htaken, h, rfl⟩

/-- Settles O35: INPUT's faults are those of its target, which is checked before the queue is looked at. -/
theorem inputChecksItsTargetBeforeSuspending : Obligations.InputChecksItsTargetBeforeSuspending :=
  fun _ => ⟨fun h => finish_eq_fault.2 (popAndStore_eq_error.2 (writeTarget_of_cell_eq_none h)),
    fun _ ht h => finish_eq_fault.2 (popAndStore_eq_error.2 (writeTarget_of_not_inRange ht h))⟩

/-- Settles O36: OUTPUT's faults are those of its operand. -/
theorem outputFaultsInOrder : Obligations.OutputFaultsInOrder :=
  fun m1 _ => ⟨fun h => finish_eq_fault.2 (readAndEmit_eq_error.2 (readOperand_of_cell_eq_none m1 h)),
    fun _ hm hp h => finish_eq_fault.2 (readAndEmit_eq_error.2 (readOperand_of_operand_eq_none hm hp h))⟩

/-- An instruction with two operands and a target completes exactly where all three resolve. -/
theorem computeAndStore_completes_iff {op : Opcode} {f : Int → Int → Int} {m1 m2 : Mode} {s : State} :
    (∃ u, finish (computeAndStore op f m1 m2 s) = .next u) ↔
      (∃ a, OperandIs s 1 m1 a) ∧ (∃ b, OperandIs s 2 m2 b) ∧ ∃ t, TargetIs s 3 t := by
  constructor
  · rintro ⟨u, h⟩
    obtain ⟨a, b, t, m, ha, hb, ht, -, -⟩ := computeAndStore_eq_ok.1 (finish_eq_next.1 h)
    exact ⟨⟨a, ha⟩, ⟨b, hb⟩, t, ht⟩
  · rintro ⟨⟨a, ha⟩, ⟨b, hb⟩, t, ht⟩
    obtain ⟨u, hu, -⟩ := computeAndStore_completes ha hb ht
    exact ⟨u, hu⟩

/-- INPUT completes or suspends exactly where its target resolves. -/
theorem popAndStore_completes_iff {s : State} : (∃ u, finish (popAndStore s) = .next u) ↔ ∃ t, TargetIs s 1 t := by
  constructor
  · rintro ⟨u, h⟩
    obtain ⟨t, ht, -⟩ := popAndStore_eq_ok.1 (finish_eq_next.1 h)
    exact ⟨t, ht⟩
  · rintro ⟨t, ht⟩
    cases hq : s.queue with
    | nil => exact ⟨_, exec_input_of_queue_eq_nil ht hq⟩
    | cons x q =>
      obtain ⟨u, hu, -⟩ := inputStoresTheFrontOfTheQueue s t x q ht hq
      exact ⟨u, hu⟩

/-- OUTPUT completes exactly where its operand resolves. -/
theorem readAndEmit_completes_iff {m1 : Mode} {s : State} :
    (∃ u, finish (readAndEmit m1 s) = .next u) ↔ ∃ a, OperandIs s 1 m1 a := by
  simp [finish_eq_next, readAndEmit_eq_ok]

/-- A jump completes exactly where its operands resolve, and the second is in range if the first makes it taken. -/
theorem testAndJump_completes_iff {op : Opcode} {takes : Int → Bool} {m1 m2 : Mode} {s : State} :
    (∃ u, finish (testAndJump op takes m1 m2 s) = .next u) ↔
      ∃ a b, OperandIs s 1 m1 a ∧ OperandIs s 2 m2 b ∧ (takes a = true → s.mem.InRange b) := by
  constructor
  · rintro ⟨u, h⟩
    obtain ⟨a, b, ha, hb, ⟨-, hin, -⟩ | ⟨hnot, -⟩⟩ := testAndJump_eq_ok.1 (finish_eq_next.1 h)
    · exact ⟨a, b, ha, hb, fun _ => hin⟩
    · exact ⟨a, b, ha, hb, fun htaken => by simp [hnot] at htaken⟩
  · rintro ⟨a, b, ha, hb, hin⟩
    cases htakes : takes a with
    | true => exact ⟨_, testAndJump_taken ha hb htakes (hin htakes)⟩
    | false => exact ⟨_, testAndJump_not_taken ha hb htakes⟩

/-- Settles O38: one equivalence per shape; HALT has no check. -/
theorem instructionsCompleteExactlyWhenTheirChecksPass : Obligations.InstructionsCompleteExactlyWhenTheirChecksPass := by
  intro s m1 m2
  refine ⟨fun i hi => ?_, popAndStore_completes_iff, readAndEmit_completes_iff, fun i hi => ?_, _, rfl⟩
  · obtain ⟨op, f, hshape⟩ := exec_of_mem_storingTwo hi
    rw [hshape]
    exact computeAndStore_completes_iff
  · obtain ⟨op, takes, htakes, hshape⟩ := exec_of_mem_jumps hi
    simp only [hshape, ← htakes]
    exact testAndJump_completes_iff

end Sys2Proof.Machine
end

section
/-! Rules over the whole machine: faults, refusals, queue, output and run-state (60_exceptions.md sections 1 and 7). -/

namespace Sys2Proof.Machine

/-- A decode fault is reported at the `ip` it is given, as one of the decoder's two kinds. -/
theorem DecodeFault.at_ip_and_kind (e : DecodeFault) (ip : Int) :
    (DecodeFault.at e ip).ip = ip ∧
      ((DecodeFault.at e ip).kind = .invalidOpcode ∨ (DecodeFault.at e ip).kind = .invalidAddressingMode) := by
  cases e with
  | invalidOpcode w => exact ⟨rfl, .inl rfl⟩
  | invalidAddressingMode w bad => exact ⟨rfl, .inr rfl⟩

/-- A step faults while RUNNING only: in its fetch, or in the instruction it runs. -/
theorem step_eq_fault {s : State} {f : Fault} (h : step s = .fault f) :
    s.rs = .running ∧ (fetchInstr s = .error f ∨ ∃ i, fetchInstr s = .ok i ∧ exec i s = .fault f) := by
  by_cases hrs : s.rs = .running
  · cases hfetch : fetchInstr s with
    | error e =>
      rw [step_of_fetchInstr_error hrs hfetch] at h
      cases h
      exact ⟨hrs, .inl rfl⟩
    | ok i =>
      rw [step_of_fetchInstr_ok hrs hfetch] at h
      exact ⟨hrs, .inr ⟨i, rfl, h⟩⟩
  · rw [step_not_running hrs] at h
    cases h

/-- Settles O39: the fetch raises a MemoryAccessFault or the decoder's fault, the instruction only MemoryAccessFaults. -/
theorem stepRaisesOnlyTheThreeFaults : Obligations.StepRaisesOnlyTheThreeFaults := by
  intro s f hstep
  obtain ⟨-, hfetch | ⟨i, -, hexec⟩⟩ := step_eq_fault hstep
  · obtain ⟨-, rfl⟩ | ⟨w, e, -, -, rfl⟩ := fetchInstr_eq_error.1 hfetch
    · exact ⟨rfl, .inr (.inr rfl)⟩
    · obtain ⟨hip, hkind⟩ := DecodeFault.at_ip_and_kind e s.ip
      exact ⟨hip, hkind.imp_right .inl⟩
  · obtain ⟨a, acc, rfl⟩ := IsAccessFault.of_exec hexec
    exact ⟨rfl, .inr (.inr rfl)⟩

/-- Every instruction has its meaning. -/
theorem exec_ne_refused (i : Instr) (s : State) (why : Refusal) : exec i s ≠ .refused why := by
  cases i with
  | add | mult | lessThan | equals | jumpIfTrue | jumpIfFalse | input | output => exact finish_ne_refused _ why
  | halt => exact nofun

/-- Settles O40: a step is idle, a fault of the fetch, or an instruction. -/
theorem stepIsNeverRefused : Obligations.StepIsNeverRefused := by
  intro s why
  by_cases hrs : s.rs = .running
  · cases hfetch : fetchInstr s with
    | error f => simp [step_of_fetchInstr_error hrs hfetch]
    | ok i => simpa [step_of_fetchInstr_ok hrs hfetch] using exec_ne_refused i s why
  · simp [step_not_running hrs]

/-- An effect pops the front of the queue, or appends one value to the output, or leaves both. -/
theorem Effect.queue_and_out {s t : State} (h : Effect s t) :
    (t.queue = s.queue ∧ (t.out = s.out ∨ ∃ v, t.out = s.out ++ [v])) ∨ (∃ x, s.queue = x :: t.queue) ∧ t.out = s.out := by
  cases h with
  | popped _ hq _ => exact .inr ⟨⟨_, hq⟩, rfl⟩
  | emitted v _ => exact .inl ⟨rfl, .inr ⟨v, rfl⟩⟩
  | stored | suspended | jumped | notTaken | halted => exact .inl ⟨rfl, .inl rfl⟩

/-- Settles O41: a step changes nothing or has one effect. -/
theorem queueOnlyShrinksAndOutputOnlyGrows : Obligations.QueueOnlyShrinksAndOutputOnlyGrows := by
  intro s t hstep
  obtain ⟨-, rfl⟩ | ⟨-, heffect⟩ := step_next_cases hstep
  · exact .inl ⟨rfl, .inl rfl⟩
  · exact heffect.queue_and_out

/-- A running step that ends RUNNING no longer ran HALT, or INPUT on an empty queue, and set the run-state alone. -/
theorem step_stops_cases {s t : State} (hrs : s.rs = .running) (hstep : step s = .next t) (hstop : t.rs ≠ .running) :
    ∃ w, s.mem.read? s.ip = some w ∧ ((decode w = .ok .halt ∧ t = s.setRs .halted) ∨
      (decode w = .ok .input ∧ s.queue = [] ∧ t = s.setRs .awaitingInput)) := by
  obtain ⟨w, i, hw, hi, hexec⟩ := (step_running_eq_next hrs).1 hstep
  refine ⟨w, hw, ?_⟩
  obtain hsame | ⟨rfl, ht⟩ | ⟨rfl, hq, ht⟩ := exec_rs_cases hexec
  · exact absurd (hsame.trans hrs) hstop
  · exact .inl ⟨hi, ht⟩
  · exact .inr ⟨hi, hq, ht⟩

/-- Settles O42: by the two ways a running step can stop. -/
theorem onlyHaltAndStarvedInputStopTheEngine : Obligations.OnlyHaltAndStarvedInputStopTheEngine := by
  intro s t hrs hstep hstop
  obtain ⟨w, hw, ⟨hi, rfl⟩ | ⟨hi, hq, rfl⟩⟩ := step_stops_cases hrs hstep hstop
  · exact ⟨rfl, w, hw, .inl ⟨hi, rfl⟩⟩
  · exact ⟨rfl, w, hw, .inr ⟨hi, hq, rfl⟩⟩

/-- Settles O43: memory and `ip` are those of the step that halted, so HALT is fetched again. -/
theorem haltedEngineHaltsAgain : Obligations.HaltedEngineHaltsAgain := by
  intro s t hrs hstep hhalted
  obtain ⟨w, hw, ⟨hi, rfl⟩ | ⟨-, -, rfl⟩⟩ := step_stops_cases hrs hstep (by simp [hhalted])
  · have hagain : step (invoke s.mem s.queue s.ip) = .next ((invoke s.mem s.queue s.ip).setRs .halted) :=
      step_of_decode_ok (invoke_rs s.mem s.queue s.ip) hw hi
    exact ⟨_, hagain, rfl, rfl, rfl, rfl, rfl⟩
  · cases hhalted

end Sys2Proof.Machine
end

section
/-! Two steps in a row: a word that is written and then fetched (20_memory.md section 4), a truth value that is written and then
tested (44_compare.md). -/

namespace Sys2Proof.Machine

/-- A word that ADD, or another of its shape, stores in the cell after itself is what the next step runs. -/
theorem computeAndStore_then_step {op : Opcode} {f : Int → Int → Int} {m1 m2 : Mode} {s : State} {a b : Int} {j : Instr}
    (hlen : op.length = 4) (hrs : s.rs = .running) (ha : OperandIs s 1 m1 a) (hb : OperandIs s 2 m2 b)
    (ht : TargetIs s 3 (s.ip + 4)) (hj : decode (f a b) = .ok j) :
    ∃ u, finish (computeAndStore op f m1 m2 s) = .next u ∧ step u = exec j u := by
  obtain ⟨u, hu, ⟨-, hstored, -⟩, hip, -, hrsu, -⟩ := computeAndStore_completes ha hb ht
  have hfetched : u.mem.read? u.ip = some (f a b) := by rwa [hip, hlen]
  exact ⟨u, hu, step_of_decode_ok (hrsu.trans hrs) hfetched hj⟩

/-- Settles O44: ADD and MULT are of that shape. -/
theorem writtenWordIsFetchedNext : Obligations.WrittenWordIsFetchedNext :=
  fun _ _ _ _ _ hrs ha hb ht => ⟨fun _ hj => computeAndStore_then_step (op := .add) (f := aluAdd) rfl hrs ha hb ht hj,
    fun _ hj => computeAndStore_then_step (op := .mult) (f := aluMul) rfl hrs ha hb ht hj⟩

/-- Whatever state a completed `computeAndStore` leaves, its target holds the function's value. -/
theorem read?_target_of_computeAndStore {op : Opcode} {f : Int → Int → Int} {m1 m2 : Mode} {s u : State} {a b t : Int}
    (ha : OperandIs s 1 m1 a) (hb : OperandIs s 2 m2 b) (ht : TargetIs s 3 t)
    (h : finish (computeAndStore op f m1 m2 s) = .next u) : u.mem.read? t = some (f a b) := by
  obtain ⟨u', hu', ⟨-, hstored, -⟩, -⟩ := computeAndStore_completes (op := op) (f := f) ha hb ht
  rw [h] at hu'
  cases hu'
  exact hstored

/-- The jumps read a truth value as the condition that it stands for. -/
theorem jumps_of_truthValue {v : State} {m : Mode} {d : Int} {p : Prop} [Decidable p]
    (hcond : OperandIs v 1 .position (truthValue (decide p))) (hd : OperandIs v 2 m d) (hin : v.mem.InRange d) :
    exec (.jumpIfTrue .position m) v = .next { v with ip := if p then d else v.ip + 3 } ∧
      exec (.jumpIfFalse .position m) v = .next { v with ip := if p then v.ip + 3 else d } := by
  obtain ⟨htaken, hnot⟩ := jumpIfTrueSelectsTheNextIp v .position m _ d hcond hd
  obtain ⟨htaken', hnot'⟩ := jumpIfFalseSelectsTheNextIp v .position m _ d hcond hd
  by_cases hp : p
  · simp only [hp, decide_true, truthValue, if_true] at htaken hnot' ⊢
    exact ⟨htaken one_ne_zero hin, hnot' one_ne_zero⟩
  · simp only [hp, decide_false, truthValue, if_false, Bool.false_eq_true] at hnot htaken' ⊢
    exact ⟨hnot trivial, htaken' trivial hin⟩

/-- Settles O45: the jump's first operand is the truth value that the comparison stored. -/
theorem comparisonResultDrivesTheJumps : Obligations.ComparisonResultDrivesTheJumps := by
  intro s u v m1 m2 m a b t d ha hb ht hmem hcell hd hin
  constructor
  · intro hu
    have hstored := read?_target_of_computeAndStore (f := aluLt) ha hb ht hu
    exact jumps_of_truthValue ⟨t, hcell, hmem ▸ hstored⟩ hd hin
  · intro hu
    have hstored := read?_target_of_computeAndStore (f := aluEq) ha hb ht hu
    exact jumps_of_truthValue ⟨t, hcell, hmem ▸ hstored⟩ hd hin

end Sys2Proof.Machine
end

section
/-! A step neither reads the output nor, unless it suspends, the queue behind its front (40_execution_cycle.md R58). -/

namespace Sys2Proof.Machine

/-- The state with outputs put before its own and inputs after its own. -/
def State.extend (s : State) (o xs : List Int) : State :=
  { s with queue := s.queue ++ xs, out := o ++ s.out }

theorem extend_nil_outputs (s : State) (xs : List Int) : s.extend [] xs = appendInput s xs := rfl

theorem extend_nil_inputs (s : State) (o : List Int) : s.extend o [] = s.setOut (o ++ s.out) := by
  simp [State.extend, State.setOut]

variable {s u : State} {o xs : List Int}

theorem computeAndStore_extend {op : Opcode} {f : Int → Int → Int} {m1 m2 : Mode} (h : computeAndStore op f m1 m2 s = .ok u) :
    computeAndStore op f m1 m2 (s.extend o xs) = .ok (u.extend o xs) := by
  obtain ⟨a, b, t, m, ha, hb, ht, hm, rfl⟩ := computeAndStore_eq_ok.1 h
  exact computeAndStore_eq_ok.2 ⟨a, b, t, m, ha, hb, ht, hm, rfl⟩

theorem testAndJump_extend {op : Opcode} {takes : Int → Bool} {m1 m2 : Mode} (h : testAndJump op takes m1 m2 s = .ok u) :
    testAndJump op takes m1 m2 (s.extend o xs) = .ok (u.extend o xs) := by
  obtain ⟨a, b, ha, hb, ⟨htakes, hin, rfl⟩ | ⟨htakes, rfl⟩⟩ := testAndJump_eq_ok.1 h
  · exact testAndJump_eq_ok.2 ⟨a, b, ha, hb, .inl ⟨htakes, hin, rfl⟩⟩
  · exact testAndJump_eq_ok.2 ⟨a, b, ha, hb, .inr ⟨htakes, rfl⟩⟩

theorem readAndEmit_extend {m1 : Mode} (h : readAndEmit m1 s = .ok u) :
    readAndEmit m1 (s.extend o xs) = .ok (u.extend o xs) := by
  obtain ⟨a, ha, rfl⟩ := readAndEmit_eq_ok.1 h
  refine readAndEmit_eq_ok.2 ⟨a, ha, ?_⟩
  simp [State.extend, State.emit, State.setOut, advance, State.setIp]

/-- INPUT suspends on an empty queue, so there only an extension by no inputs is not seen. -/
theorem popAndStore_extend (h : popAndStore s = .ok u) (hxs : xs = [] ∨ u.rs ≠ .awaitingInput) :
    popAndStore (s.extend o xs) = .ok (u.extend o xs) := by
  obtain ⟨t, ht, ⟨hq, rfl⟩ | ⟨x, q, m, hq, hm, rfl⟩⟩ := popAndStore_eq_ok.1 h
  · obtain rfl | hne := hxs
    · exact popAndStore_eq_ok.2 ⟨t, ht, .inl ⟨by simp [State.extend, hq], rfl⟩⟩
    · exact absurd rfl hne
  · exact popAndStore_eq_ok.2 ⟨t, ht, .inr ⟨x, q ++ xs, m, by simp [State.extend, hq], hm, rfl⟩⟩

/-- An instruction that completes does the same in the extended state. -/
theorem exec_extend_of_next {i : Instr} (h : exec i s = .next u) (hxs : xs = [] ∨ u.rs ≠ .awaitingInput) :
    exec i (s.extend o xs) = .next (u.extend o xs) := by
  cases i with
  | add | mult | lessThan | equals => exact finish_eq_next.2 (computeAndStore_extend (finish_eq_next.1 h))
  | jumpIfTrue | jumpIfFalse => exact finish_eq_next.2 (testAndJump_extend (finish_eq_next.1 h))
  | input => exact finish_eq_next.2 (popAndStore_extend (finish_eq_next.1 h) hxs)
  | output => exact finish_eq_next.2 (readAndEmit_extend (finish_eq_next.1 h))
  | halt =>
    cases h
    rfl

/-- An instruction that faults raises the same fault in the extended state: its checks read memory and `ip` alone. -/
theorem exec_extend_of_fault {i : Instr} {f : Fault} (h : exec i s = .fault f) : exec i (s.extend o xs) = .fault f := by
  cases i with
  | add | mult | lessThan | equals =>
    have hcheck := computeAndStore_eq_error.1 (finish_eq_fault.1 h)
    exact finish_eq_fault.2 (computeAndStore_eq_error.2 hcheck)
  | jumpIfTrue | jumpIfFalse =>
    have hcheck := testAndJump_eq_error.1 (finish_eq_fault.1 h)
    exact finish_eq_fault.2 (testAndJump_eq_error.2 hcheck)
  | input =>
    have hcheck := popAndStore_eq_error.1 (finish_eq_fault.1 h)
    exact finish_eq_fault.2 (popAndStore_eq_error.2 hcheck)
  | output =>
    have hcheck := readAndEmit_eq_error.1 (finish_eq_fault.1 h)
    exact finish_eq_fault.2 (readAndEmit_eq_error.2 hcheck)
  | halt => cases h

/-- The fetch reads memory and `ip` alone. -/
theorem fetchInstr_extend : fetchInstr (s.extend o xs) = fetchInstr s := rfl

theorem step_extend_of_next (hrs : s.rs = .running) (h : step s = .next u) (hxs : xs = [] ∨ u.rs ≠ .awaitingInput) :
    step (s.extend o xs) = .next (u.extend o xs) := by
  obtain ⟨w, i, hw, hi, hexec⟩ := (step_running_eq_next hrs).1 h
  exact (step_running_eq_next (s := s.extend o xs) hrs).2 ⟨w, i, hw, hi, exec_extend_of_next hexec hxs⟩

theorem step_extend_of_fault {f : Fault} (h : step s = .fault f) : step (s.extend o xs) = .fault f := by
  obtain ⟨hrs, hfetch | ⟨i, hfetch, hexec⟩⟩ := step_eq_fault h
  · exact step_of_fetchInstr_error (s := s.extend o xs) hrs (fetchInstr_extend.trans hfetch)
  · rw [step_of_fetchInstr_ok (s := s.extend o xs) hrs (fetchInstr_extend.trans hfetch)]
    exact exec_extend_of_fault hexec

end Sys2Proof.Machine
end

section
/-! Inputs appended later, and invocations (40_execution_cycle.md R45, R55, R58): the outcome under more fuel, and across a
resumption. -/

namespace Sys2Proof.Machine

/-- Settles O46: appending inputs is an extension, and the step does not suspend. -/
theorem appendedInputLeavesTheStepAlone : Obligations.AppendedInputLeavesTheStepAlone := by
  intro s t xs hrs hstep hne
  rw [← extend_nil_outputs, ← extend_nil_outputs]
  exact step_extend_of_next hrs hstep (.inr hne)

theorem endOf_of_running {s : State} (hrs : s.rs = .running) : endOf s = none := by
  simp [endOf, hrs]

/-- An invocation has ended exactly where the engine is not RUNNING. -/
theorem exists_endOf_of_not_running {s : State} (hrs : s.rs ≠ .running) : ∃ r, endOf s = some r := by
  cases h : s.rs with
  | running => exact absurd h hrs
  | awaitingInput => exact ⟨.suspended s, by simp [endOf, h]⟩
  | halted => exact ⟨.halted s, by simp [endOf, h]⟩

/-- An invocation that has ended keeps its outcome under any fuel. -/
theorem runFrom_of_not_running {s : State} (hrs : s.rs ≠ .running) (n : Nat) : runFrom n s = endOf s := by
  obtain ⟨r, hr⟩ := exists_endOf_of_not_running hrs
  cases n with
  | zero => rfl
  | succ n => simp [runFrom, hr]

/-- Without fuel a running engine has no outcome. -/
theorem runFrom_zero_of_running {s : State} (hrs : s.rs = .running) : runFrom 0 s = none :=
  endOf_of_running hrs

/-- All outcomes of a running engine with fuel: those after its step, or the step's fault. -/
theorem runFrom_succ_eq_some {n : Nat} {s : State} {r : RunOutcome} (hrs : s.rs = .running) :
    runFrom (n + 1) s = some r ↔
      (∃ t, step s = .next t ∧ runFrom n t = some r) ∨ ∃ f, step s = .fault f ∧ r = .faulted f := by
  simp only [runFrom, endOf_of_running hrs]
  cases step s <;> simp [eq_comm]

/-- Settles O48: by induction on the fuel that suffices. -/
theorem outcomeDoesNotDependOnFuel : Obligations.OutcomeDoesNotDependOnFuel := by
  intro n k
  induction n with
  | zero =>
    intro s r h
    by_cases hrs : s.rs = .running
    · rw [runFrom_zero_of_running hrs] at h
      cases h
    · rwa [runFrom_of_not_running hrs] at h ⊢
  | succ n ih =>
    intro s r h
    by_cases hrs : s.rs = .running
    · rw [Nat.add_right_comm, runFrom_succ_eq_some hrs]
      exact ((runFrom_succ_eq_some hrs).1 h).imp_left fun ⟨t, hstep, hrun⟩ => ⟨t, hstep, ih t r hrun⟩
    · rwa [runFrom_of_not_running hrs] at h ⊢

/-- Outputs put before a state's own are put before those of its outcome. -/
theorem endOf_extend {s : State} {r : RunOutcome} (o : List Int) (h : endOf s = some r) :
    endOf (s.extend o []) = some (r.afterOutputs o) := by
  rw [extend_nil_inputs]
  cases hrs : s.rs with
  | running =>
    rw [endOf_of_running hrs] at h
    cases h
  | awaitingInput =>
    obtain rfl : .suspended s = r := by simpa [endOf, hrs] using h
    simp [endOf, hrs, RunOutcome.afterOutputs]
  | halted =>
    obtain rfl : .halted s = r := by simpa [endOf, hrs] using h
    simp [endOf, hrs, RunOutcome.afterOutputs]

theorem runFrom_extend {n : Nat} {s : State} {r : RunOutcome} (o : List Int) (h : runFrom n s = some r) :
    runFrom n (s.extend o []) = some (r.afterOutputs o) := by
  induction n generalizing s with
  | zero => exact endOf_extend o h
  | succ n ih =>
    by_cases hrs : s.rs = .running
    · refine (runFrom_succ_eq_some (s := s.extend o []) hrs).2 ?_
      obtain ⟨t, hstep, hrun⟩ | ⟨f, hstep, rfl⟩ := (runFrom_succ_eq_some hrs).1 h
      · exact .inl ⟨_, step_extend_of_next hrs hstep (.inl rfl), ih hrun⟩
      · exact .inr ⟨f, step_extend_of_fault hstep, rfl⟩
    · rw [runFrom_of_not_running hrs] at h
      rw [runFrom_of_not_running (s := s.extend o []) hrs]
      exact endOf_extend o h

theorem endOf_eq_suspended {s t : State} : endOf s = some (.suspended t) ↔ s.rs = .awaitingInput ∧ t = s := by
  cases hrs : s.rs <;> simp [endOf, hrs, eq_comm]

/-- Before the INPUT that suspends, the engine with inputs appended is the resumed one with the earlier outputs. -/
theorem appendInput_eq_extend_resume {s : State} (hrs : s.rs = .running) (xs : List Int) :
    appendInput s xs = (resume (s.setRs .awaitingInput) xs).extend s.out [] := by
  simp [appendInput, State.setQueue, State.extend, resume, invoke, ← hrs]

/-- Settles O47: up to the suspending INPUT each step is the same with the inputs appended (O46); from there the run is the resumed
one with the earlier outputs before its own. -/
theorem resumptionIsTransparent : Obligations.ResumptionIsTransparent := by
  intro fuel fuel' s t xs r hrs hsuspended hresumed
  induction fuel generalizing s with
  | zero =>
    rw [runFrom_zero_of_running hrs] at hsuspended
    cases hsuspended
  | succ n ih =>
    obtain ⟨u, hstep, hrun⟩ | ⟨f, -, hf⟩ := (runFrom_succ_eq_some hrs).1 hsuspended
    · by_cases hu : u.rs = .running
      · obtain ⟨k, hk⟩ := ih u hu hrun
        have happended : step (appendInput s xs) = .next (appendInput u xs) :=
          appendedInputLeavesTheStepAlone s u xs hrs hstep (by simp [hu])
        exact ⟨k + 1, (runFrom_succ_eq_some (s := appendInput s xs) hrs).2 (.inl ⟨_, happended, hk⟩)⟩
      · rw [runFrom_of_not_running hu] at hrun
        obtain ⟨hawait, rfl⟩ := endOf_eq_suspended.1 hrun
        obtain ⟨w, -, ⟨-, rfl⟩ | ⟨-, -, rfl⟩⟩ := step_stops_cases hrs hstep hu
        · cases hawait
        · rw [appendInput_eq_extend_resume hrs]
          exact ⟨fuel', runFrom_extend _ hresumed⟩
    · cases hf

end Sys2Proof.Machine
end

section
/-! Realisations of finite width (00_scope.md R5), and the ring (60_exceptions.md R102). -/

namespace Sys2Proof.Machine

/-- Unbounded parameters check nothing. -/
theorem newCellsFit_none (s t : State) : newCellsFit none s t = true := by
  simp [newCellsFit, fitsWidth]

/-- Settles O49: none of the reference's checks can fail. -/
theorem referenceRealisationIsTheStep : Obligations.ReferenceRealisationIsTheStep := by
  intro s
  simp only [boundedStep, Config.reference, fitsAddresses, newCellsFit_none, fitsCapacity, if_true]
  cases step s <;> rfl

/-- Where the new cells fit and the old ones did, all do. -/
theorem cells_fit_of_newCellsFit {bits : Option Nat} {s t : State} (hnew : newCellsFit bits s t = true)
    (hold : ∀ c ∈ s.mem.cells, fitsWidth bits c.2 = true) : ∀ c ∈ t.mem.cells, fitsWidth bits c.2 = true := by
  intro c hc
  obtain hmem | hfit := Bool.or_eq_true_iff.1 (List.all_eq_true.1 hnew c hc)
  · exact hold c (List.contains_iff_mem.1 hmem)
  · exact hfit

/-- Settles O50: a bounded step answers the reference's next state after its checks. -/
theorem boundedStepNeverWraps : Obligations.BoundedStepNeverWraps := by
  intro r s t h
  obtain ⟨-, hstep, hnew, hout⟩ := boundedStep_eq_next.1 h
  exact ⟨hstep, cells_fit_of_newCellsFit hnew, hout⟩

theorem boundedRead?_eq_read? {bits : Option Nat} {m : Memory} (a : Int) (hfit : fitsAddresses bits m.size = true) :
    boundedRead? bits m a = m.read? a := by
  by_cases ha : m.InRange a
  · rw [boundedRead?, if_pos ha, truncateAddress_of_inRange hfit ha]
  · rw [boundedRead?, if_neg ha, Memory.read?_eq_none.2 ha]

theorem boundedWrite?_eq_write? {bits : Option Nat} {m : Memory} (a v : Int) (hfit : fitsAddresses bits m.size = true) :
    boundedWrite? bits m a v = m.write? a v := by
  by_cases ha : m.InRange a
  · rw [boundedWrite?, if_pos ha, truncateAddress_of_inRange hfit ha]
  · rw [boundedWrite?, if_neg ha, Memory.write?_eq_none.2 ha]

/-- Settles O52: truncation changes no address in range; a launch checks the length, and a step keeps it. -/
theorem finiteAddressesNeverShow : Obligations.FiniteAddressesNeverShow := by
  refine ⟨fun bits m a v hfit => ⟨boundedRead?_eq_read? a hfit, boundedWrite?_eq_write? a v hfit⟩, ?_, ?_⟩
  · intro r program inputs s h
    obtain ⟨-, hfit, -, -, rfl⟩ := boundedLaunch_eq_next.1 h
    exact hfit
  · intro r s t h
    obtain ⟨hfit, hstep, -, -⟩ := boundedStep_eq_next.1 h
    rwa [size_mem_of_step hstep]

/-- Settles O51: one place of the list is set, and one modified. -/
theorem ringStagesShareNoState : Obligations.RingStagesShareNoState := by
  intro stages cur t k hk
  have hset : (stages.set cur (resume t []))[k]? = stages[k]? := List.getElem?_set_ne (Ne.symm hk)
  constructor
  · intro hne
    rw [ringPass, List.getElem?_modify_ne _ _ (Ne.symm hne), hset]
  · rintro rfl
    rw [ringPass, List.getElem?_modify_eq, hset]
    rfl

/-- All that a round can do when the ring's loop ends with a result: it stops at the halt of the last stage, or goes on with the
stages that its invocation leaves. -/
theorem ringLoop_succ_eq_result {fuel rounds cur : Nat} {stages stages' : List State} {last : Option Int} {v : Int}
    (h : ringLoop fuel (rounds + 1) cur stages last = some (.result v stages')) :
    (∃ s t, stages[cur]? = some s ∧ runFrom fuel s = some (.halted t) ∧ cur + 1 = stages.length ∧
      ringStop (ringPass stages cur t) (lastEmitted t last) = .result v stages') ∨
    ∃ t next last', ringLoop fuel rounds next (ringPass stages cur t) last' = some (.result v stages') := by
  cases hs : stages[cur]? with
  | none => simp [ringLoop, hs] at h
  | some s =>
    cases hrun : runFrom fuel s with
    | none => simp [ringLoop, hs, hrun] at h
    | some r =>
      cases r with
      | faulted f => simp [ringLoop, hs, hrun] at h
      | suspended t =>
        simp only [ringLoop, hs, hrun] at h
        exact .inr ⟨t, _, _, h⟩
      | halted t =>
        simp only [ringLoop, hs, hrun] at h
        by_cases hlast : cur + 1 = stages.length
        · rw [if_pos hlast] at h
          exact .inl ⟨s, t, rfl, hrun, hlast, Option.some.inj h⟩
        · rw [if_neg hlast] at h
          exact .inr ⟨t, _, _, h⟩

/-- The last value that an invocation emitted is the last emitted, whatever was emitted earlier. -/
theorem lastEmitted_of_out_eq_concat {t : State} {o : List Int} {x : Int} (earlier : Option Int) (h : t.out = o ++ [x]) :
    lastEmitted t earlier = some x := by
  simp [lastEmitted, h]

/-- Settles O53: by induction on the rounds; passing outputs on keeps the number of stages, and only a halt of the last stage stops
the loop with a result. -/
theorem ringStopsAfterPassingTheLastOutputs : Obligations.RingStopsAfterPassingTheLastOutputs := by
  intro fuel rounds cur stages stages' last v h
  induction rounds generalizing cur stages last with
  | zero => cases h
  | succ rounds ih =>
    obtain ⟨s, t, hs, hrun, hlast, hstop⟩ | ⟨t, next, last', hrest⟩ := ringLoop_succ_eq_result h
    · obtain ⟨hv, rfl⟩ := ringStop_eq_result.1 hstop
      obtain rfl : cur = stages.length - 1 := by omega
      refine ⟨stages, s, t, rfl, hs, hrun, rfl, fun o x ho => ?_⟩
      rw [lastEmitted_of_out_eq_concat last ho] at hv
      exact (Option.some.inj hv).symm
    · simpa only [ringPass_length] using ih next (ringPass stages cur t) last' hrest

end Sys2Proof.Machine
end
